-- ==== Sys2Proof/Word.lean ====
section
/-! DEFINITION. The words the engine is built from: command words, register numbers, `W`-bit words and the command triple
(20_memory.md R41, R43; 30_encoding.md R60, R72; 00_scope.md R9). -/

namespace Sys2Proof

/-- The 16-bit command word `CW` (R60, `CWLEN = 16` of R8). -/
abbrev CommandWord := BitVec 16

/-- A register number: each of the `NREG = 16` values names one element register, and every value is legal
(R8, R72). -/
abbrev Reg := Fin 16

/-- A `W`-bit field or port: it holds a natural number below `2^W`, and wire `i` is the coefficient of `x^i` (R41). The
arithmetic of the spec is on these natural numbers (R9), so a meaning takes `toNat` of its operands. -/
abbrev Word (W : Nat) := BitVec W

/-- `zext_N(v)`: "`v` placed in an `N`-bit field with zeros above; defined for `v < 2^N` only" (R10). By R42 no operation of
an engine whose registers are reduced places a longer number (log entry 9). -/
abbrev zext (W v : Nat) : Word W := BitVec.ofNat W v

/-- One command of an engine of width `W`, "the triple `(CW, DV, DM)` sampled together at one handshake" (R43). -/
structure Command (W : Nat) where
  cw : CommandWord
  dv : Word W
  dm : Word W
  deriving DecidableEq, Repr

end Sys2Proof
end

