-- ==== Sys2Proof/Syntax.lean ====
section
/-! DEFINITION. The six commands of the GFRE command set (30_encoding.md R61, R63): one constructor for each row of
spec/opcode_table.json. -/

namespace Sys2Proof

/-- A command with its operands. The data words `DV` and `DM` are operands of GFNEW alone (R61, R62), and stand here as the
numbers they hold (R72); which numbers an engine of width `W` can be given, `Instr.wellFormed` says. -/
inductive Instr where
  /-- GFNEW, format D: `OP = 1` (R87). -/
  | gfnew (rd : Reg) (dv dm : Nat)
  /-- GFADD, format R: `OP = 2` (R103). -/
  | gfadd (rd ra rb : Reg)
  /-- GFSUB, format R: `OP = 3` (R104). -/
  | gfsub (rd ra rb : Reg)
  /-- GFMUL, format R: `OP = 4` (R118). -/
  | gfmul (rd ra rb : Reg)
  /-- GFEQ, format C: `OP = 5` (R131). -/
  | gfeq (ra rb : Reg)
  /-- GFRD, format S: `OP = 6` (R133). -/
  | gfrd (ra : Reg)
  deriving DecidableEq, Repr

end Sys2Proof
end

