-- ==== Sys2Proof/Decode.lean ====
section
/-! DEFINITION. The decoder, total on every command word, and the encoder (30_encoding.md R60 to R68). -/

namespace Sys2Proof

/-! The fields of a command word: `OP = CW[15:12]`, `RD = CW[11:8]`, `RA = CW[7:4]`, `RB = CW[3:0]` (R60). -/

def CommandWord.op (w : CommandWord) : Fin 16 := ⟨w.toNat / 4096 % 16, Nat.mod_lt _ (by decide)⟩
def CommandWord.rd (w : CommandWord) : Reg := ⟨w.toNat / 256 % 16, Nat.mod_lt _ (by decide)⟩
def CommandWord.ra (w : CommandWord) : Reg := ⟨w.toNat / 16 % 16, Nat.mod_lt _ (by decide)⟩
def CommandWord.rb (w : CommandWord) : Reg := ⟨w.toNat % 16, Nat.mod_lt _ (by decide)⟩

/-- The decoder of R68, strict about must-be-zero fields (R65); `none` is an illegal word (R64, R65). The numbers on the
data words ride along with GFNEW and are dropped by every other command (R62). -/
def decode {W : Nat} (c : Command W) : Option Instr :=
  if c.cw.op = 1 ∧ c.cw.ra = 0 ∧ c.cw.rb = 0 then some (.gfnew c.cw.rd c.dv.toNat c.dm.toNat)
  else if c.cw.op = 2 then some (.gfadd c.cw.rd c.cw.ra c.cw.rb)
  else if c.cw.op = 3 then some (.gfsub c.cw.rd c.cw.ra c.cw.rb)
  else if c.cw.op = 4 then some (.gfmul c.cw.rd c.cw.ra c.cw.rb)
  else if c.cw.op = 5 ∧ c.cw.rd = 0 then some (.gfeq c.cw.ra c.cw.rb)
  else if c.cw.op = 6 ∧ c.cw.rd = 0 ∧ c.cw.rb = 0 then some (.gfrd c.cw.ra)
  else none

/-- The command word of an instruction, by the formulas of R68. -/
def encodeWord : Instr → CommandWord
  | .gfnew d _ _ => BitVec.ofNat 16 (0x1000 + 0x100 * d.val)
  | .gfadd d a b => BitVec.ofNat 16 (0x2000 + 0x100 * d.val + 0x10 * a.val + b.val)
  | .gfsub d a b => BitVec.ofNat 16 (0x3000 + 0x100 * d.val + 0x10 * a.val + b.val)
  | .gfmul d a b => BitVec.ofNat 16 (0x4000 + 0x100 * d.val + 0x10 * a.val + b.val)
  | .gfeq a b => BitVec.ofNat 16 (0x5000 + 0x10 * a.val + b.val)
  | .gfrd a => BitVec.ofNat 16 (0x6000 + 0x10 * a.val)

/-- The command of an instruction that is well formed for width `W`: its word, and GFNEW's operands on the data words.
The other commands ignore the data words, and the encoder puts 0 on them, as the listings of R69 show (log entry 10). -/
def encode (W : Nat) : Instr → Command W
  | .gfnew d dv dm => ⟨encodeWord (.gfnew d dv dm), zext W dv, zext W dm⟩
  | .gfadd d a b => ⟨encodeWord (.gfadd d a b), 0, 0⟩
  | .gfsub d a b => ⟨encodeWord (.gfsub d a b), 0, 0⟩
  | .gfmul d a b => ⟨encodeWord (.gfmul d a b), 0, 0⟩
  | .gfeq a b => ⟨encodeWord (.gfeq a b), 0, 0⟩
  | .gfrd a => ⟨encodeWord (.gfrd a), 0, 0⟩

/-- The operation code of an instruction (the `OP` column of R63). -/
def Instr.op : Instr → Fin 16
  | .gfnew _ _ _ => 1
  | .gfadd _ _ _ => 2
  | .gfsub _ _ _ => 3
  | .gfmul _ _ _ => 4
  | .gfeq _ _ => 5
  | .gfrd _ => 6

/-- The destination register of an instruction, if it has one (the `writes` column of R26's table). -/
def Instr.dest : Instr → Option Reg
  | .gfnew d _ _ => some d
  | .gfadd d _ _ => some d
  | .gfsub d _ _ => some d
  | .gfmul d _ _ => some d
  | .gfeq _ _ => none
  | .gfrd _ => none

/-- The source registers of an instruction (the `reads` column of R26's table). -/
def Instr.sources : Instr → List Reg
  | .gfnew _ _ _ => []
  | .gfadd _ a b => [a, b]
  | .gfsub _ a b => [a, b]
  | .gfmul _ a b => [a, b]
  | .gfeq a b => [a, b]
  | .gfrd a => [a]

/-- The command whose word is the low `nbits` bits of `w` and whose data words, to which the opcode table gives no
bits, are 0 (log entry 10). -/
def tableCommand (W nbits w : Nat) : Command W := ⟨BitVec.ofNat 16 (w % 2 ^ nbits), 0, 0⟩

/-- The instruction the decoder reads from a word numbered as spec/opcode_table.json numbers it. A command is one
16-bit word, taken whole from a port (R46, R67), so there is no byte order to apply; data words of 0 are the same number
at every width, here the least. -/
def decodeTableWord (nbits w : Nat) : Option Instr := decode (tableCommand 1 nbits w)

end Sys2Proof
end

