-- ==== Sys2Proof/Machine/Poly.lean ====
section
/-! DEFINITION. Arithmetic of polynomials over GF(2) held as natural numbers: bit length, the reduction engine, the
XOR adder and the multiplier (00_scope.md R10, 40_construction_reduction.md R82, 41_compat_addsub.md R102,
42_multiply.md R115, R120). Each `while` loop of the spec is structural recursion on a bound of its number of passes;
Sys2Proof/Laws/Poly.lean proves that the bounds are never what ends a loop. -/

namespace Sys2Proof.Machine

/-- The bit length `bl(n)`: 0 for 0, else `floor(log2 n) + 1` (R10). -/
def bl (n : Nat) : Nat := if n = 0 then 0 else Nat.log2 n + 1

/-- One pass of the reduction loop: the modulus, shifted to align its leading term with that of `v`, is XORed into
`v` (R82, R83). -/
def reducePass (v p : Nat) : Nat := v ^^^ (p <<< (bl v - bl p))

/-- The reduction loop `while bl(v) ≥ bl(p)` of R82, for at most `fuel` passes. -/
def reduceLoop : Nat → Nat → Nat → Nat
  | 0, v, _ => v
  | fuel + 1, v, p => if bl p ≤ bl v then reduceLoop fuel (reducePass v p) p else v

/-- `reduce(v, p)`, the remainder of the long division of `v` by `p` (R82), in "at most `bit_length(value)`" passes
(R84). For `p = 0`, which no command passes (R81), it is `v`. -/
def reduce (v p : Nat) : Nat := reduceLoop (bl v) v p

/-- The shift and the value after each pass of `reduce(v, p)`, first pass first (the `steps` column of
95_test_vectors.md section 2). Information only: no command uses it (R195). -/
def reduceStepsLoop : Nat → Nat → Nat → List (Nat × Nat)
  | 0, _, _ => []
  | fuel + 1, v, p =>
    if bl p ≤ bl v then (bl v - bl p, reducePass v p) :: reduceStepsLoop fuel (reducePass v p) p else []

/-- The passes of `reduce(v, p)`; its length is the iteration count of R84 and R195. -/
def reduceSteps (v p : Nat) : List (Nat × Nat) := reduceStepsLoop (bl v) v p

/-- The XOR adder (R102). -/
def gfadd (x y : Nat) : Nat := x ^^^ y

/-- Subtraction is the same XOR, "addition is its own inverse" (R102, R104). -/
def gfsub (x y : Nat) : Nat := x ^^^ y

/-- The locals of the multiplier's loop (R115). -/
structure MulLocals where
  a : Nat
  b : Nat
  r : Nat
  deriving DecidableEq, Repr

/-- One pass of the multiplier's loop body, its three statements in order (R115). -/
def mulPass (p : Nat) (l : MulLocals) : MulLocals :=
  { a := reduce (l.a <<< 1) p, b := l.b >>> 1, r := if l.b.testBit 0 then l.r ^^^ l.a else l.r }

/-- The multiplier's loop `while b > 0` of R115, for at most `fuel` passes. -/
def mulLoop (p : Nat) : Nat → MulLocals → MulLocals
  | 0, l => l
  | fuel + 1, l => if l.b = 0 then l else mulLoop p fuel (mulPass p l)

/-- The locals at the loop test after `k` passes of `gfmul(x, y, p)` (R116). -/
def mulAfter (x y p : Nat) : Nat → MulLocals
  | 0 => ⟨x, y, 0⟩
  | k + 1 => mulPass p (mulAfter x y p k)

/-- The passes of the multiplier's loop from locals `l`: how often `while b > 0` runs its body, up to `fuel`
(R117). Information only: no command uses it. -/
def mulPassCount (p : Nat) : Nat → MulLocals → Nat
  | 0, _ => 0
  | fuel + 1, l => if l.b = 0 then 0 else mulPassCount p fuel (mulPass p l) + 1

/-- `gfmul(x, y, p)`: shift-and-add with interleaved reduction, and the final reduction the source retains
(R115, R119). The loop runs `bl(y)` times (R117). -/
def gfmul (x y p : Nat) : Nat := reduce (mulLoop p (bl y) ⟨x, y, 0⟩).r p

/-- The carry-less product: "the XOR of `x << i` over all `i` with `y[i] = 1`" (R120). The engine never forms it; it
states what `gfmul` and `reduce` return. -/
def clmul (x y : Nat) : Nat :=
  (List.range (bl y)).foldl (fun acc i => if y.testBit i then acc ^^^ (x <<< i) else acc) 0

end Sys2Proof.Machine
end

