-- ==== Sys2Proof/Config.lean ====
section
/-! DEFINITION. What one implementation fixes: the datapath width `W`, the spec's only OPEN parameter
(00_scope.md R8, 92_eei_decisions.md D2). No value is chosen for it anywhere in the model. -/

namespace Sys2Proof

/-- The parameters of one engine: `W`, "a natural number, `W ≥ 1`, that the model takes as an argument" (R8). -/
structure Config where
  W : Nat
  one_le_W : 1 ≤ W
  deriving DecidableEq, Repr

/-- `n` is a number a `W`-bit field or port can hold (R41): `n < 2^W`. -/
abbrev Config.Fits (cfg : Config) (n : Nat) : Prop := n < 2 ^ cfg.W

/-- One less than the width of the engine that `State.reset` is the reset state of: a free value, of which nothing can be
proved (log entry 13). -/
opaque Config.widthPred : Nat

/-- The parameters of the engine that `State.reset` is the reset state of: a width of which only `W ≥ 1` is known (R8, log
entry 13). -/
def Config.engine : Config := ⟨Config.widthPred + 1, Nat.le_add_left 1 _⟩

end Sys2Proof
end

