-- ==== Sys2Proof/Machine/State.lean ====
section
/-! DEFINITION. The state. `Engine` is the spec's state type: the sixteen element registers and nothing else (10_state.md
R20, R29). `State` is the closed machine the host's interface steps: one engine with its parameters, and its two channels
and its host beside it (20_memory.md R43 to R45, R51). -/

namespace Sys2Proof.Machine

/-- The error kinds of 60_exceptions.md R160. `malformedEncoding` belongs to the host-side conversions; no step of
the engine produces it (R162). -/
inductive ErrorKind where
  | invalidModulus
  | malformedEncoding
  | incompatibleField
  | emptyRegister
  | illegalCommand
  deriving DecidableEq, Repr

/-- The status of a response (R160). -/
inductive Status where
  | ok
  | err (k : ErrorKind)
  deriving DecidableEq, Repr

/-- One response, the quadruple `(ST, EQ, RV, RM)` (R44). -/
structure Response (W : Nat) where
  st : Status
  eq : Bool
  rv : Word W
  rm : Word W
  deriving DecidableEq, Repr

/-- A Field Element: a modulus and a value, `W` bits each (R20, R21). The degree is derived, never stored (R22). -/
structure Element (W : Nat) where
  modulus : Word W
  value : Word W
  deriving DecidableEq, Repr

/-- An element register. `none` is `V = 0` and `some ⟨MOD, VAL⟩` is `V = 1`. The contents of an empty register "have
no meaning and no command can observe them" (R23), so the model keeps no payload for it, as R33 allows (log entry 2). -/
abbrev ElementReg (W : Nat) := Option (Element W)

/-- The register file `E[0] .. E[15]` (R20). -/
abbrev RegFile (W : Nat) := Vector (ElementReg W) 16

/-- The engine of width `W`. "A model's state type has no field besides the register file" (R29). -/
structure Engine (W : Nat) where
  regs : RegFile W
  deriving DecidableEq, Repr

/-- What the host does at the engine's ports, one event after another (R43 to R45). -/
inductive HostEvent (W : Nat) where
  /-- The host offers a command with `CMD_VALID` and holds it until it is issued (R43, R192). -/
  | issue (c : Command W)
  /-- The host drives `RSP_READY` to a value and leaves it there (R44). -/
  | driveRspReady (b : Bool)
  /-- The host asserts `RESET` with no command executing (R45, R185). -/
  | reset
  /-- The host asserts `RESET` while command `c` is executing: `c` is abandoned (R186). -/
  | resetDuring (c : Command W)
  deriving DecidableEq, Repr

/-- The closed machine (log entry 12). `cfg` is its parameter `W`, an argument of the machine and no state: no step changes
it (R8, R32; log entry 13). `engine` is the engine's state, all of it (R20, R29). The other fields are no state of the
engine: `rsp` is what stands on the response channel, `RSP_VALID` being 1 exactly when it holds a response, and then
`CMD_READY` is 0 (R44, R51); `rspReady` is what the host drives on `RSP_READY` (R44), `script` what it does next, oldest
first (R27), and `record` its own record of the responses it has taken, in issue order (R169). -/
structure State where
  cfg : Config
  engine : Engine cfg.W
  rsp : Option (Response cfg.W)
  rspReady : Bool
  script : List (HostEvent cfg.W)
  record : List (Response cfg.W)
  deriving DecidableEq, Repr

/-- Reasons for which the machine stops with a fault. There is none: an error of the engine is a response, after
which "the engine simply becomes ready for the next command" (R166), and the engine cannot hang (R197). Nothing
raises a fault; the empty type is safe. -/
inductive Fault where
  deriving DecidableEq, Repr

/-- Reasons for which the machine refuses an instruction. -/
inductive Refusal where
  /-- An instruction of the table without a meaning in the model, raised by its arm of `exec` only; no arm raises it,
  since every instruction has its meaning. It is safe: the machine stops where the hardware would go on. -/
  | notModelled (mnemonic : String)
  /-- GFNEW with a number of `2^W` or more, which the ports of an engine of width `W` cannot carry, so that the host "must
  refuse the request itself" (R55, U16; log entry 13). Only `exec` on an instruction that is not well formed raises it: no
  command decodes to one, and no step raises it. It is safe: no command of the hardware is refused. -/
  | operandTooWide
  deriving DecidableEq, Repr

/-- The machine of an engine of the given width right after reset (R33, R185, R187): every register is empty, no command
is in flight and no response is presented. On the host's side nothing has happened: it is ready to take responses (log
entry 4), and it does nothing until commands are put into its script (log entry 3). -/
def State.resetOf (cfg : Config) : State :=
  { cfg := cfg, engine := ⟨Vector.replicate 16 none⟩, rsp := none, rspReady := true, script := [], record := [] }

/-- The machine right after reset, at the width of the engine, which is open (R8; log entry 13). -/
def State.reset : State := State.resetOf Config.engine

end Sys2Proof.Machine
end

