-- ==== Sys2Proof/Machine/Ops.lean ====
section
/-! DEFINITION. The named operations every command is built from: reading and writing an element register, responding,
and raising an error (00_scope.md R11, 60_exceptions.md R160, R166), and what the host's events do at the ports
(20_memory.md R44, 70_reset_and_hazards.md R185). -/

namespace Sys2Proof.Machine

/-- The outcome of a step of this machine. -/
abbrev Outcome := Host.Outcome State Fault Refusal

/-- The status code numbers of R160. -/
def ErrorKind.code : ErrorKind → BitVec 3
  | .invalidModulus => 1
  | .malformedEncoding => 2
  | .incompatibleField => 3
  | .emptyRegister => 4
  | .illegalCommand => 5

/-- The value of the port `ST` (R44, R160). -/
def Status.code : Status → BitVec 3
  | .ok => 0
  | .err k => k.code

/-! Operations on the engine. -/

/-- What a command makes of an engine: the codomain `RegisterFile × Response` of the step function of R50. -/
abbrev Result (W : Nat) := Engine W × Response W

/-- `E[i]`: the element in register `i`, `none` when the register is empty (R11, R23). -/
def Engine.read {W : Nat} (E : Engine W) (i : Reg) : ElementReg W := E.regs[i]

/-- `E[i] <- (p, v)`: `V`, `MOD` and `VAL` are written together; there is no other register write (R11, R48). -/
def Engine.write {W : Nat} (E : Engine W) (i : Reg) (e : Element W) : Engine W := ⟨E.regs.set i (some e)⟩

/-- The engine after `RESET`: every register is empty (R33, R185). -/
def Engine.empty (W : Nat) : Engine W := ⟨Vector.replicate 16 none⟩

/-- The response that returns an element: `(0, 0, VAL, MOD)` (R44). -/
def Response.ofElement {W : Nat} (e : Element W) : Response W := ⟨.ok, false, e.value, e.modulus⟩

/-- The response of a successful GFEQ: `(0, eq, 0, 0)` (R44). -/
def Response.ofEq {W : Nat} (b : Bool) : Response W := ⟨.ok, b, 0, 0⟩

/-- The response of an error: `(code, 0, 0, 0)` (R44, R166). -/
def Response.ofError {W : Nat} (k : ErrorKind) : Response W := ⟨.err k, false, 0, 0⟩

/-- Taking an error: no register is written, the response is `(code, 0, 0, 0)`, nothing else changes and the engine
becomes ready for the next command (R166). There is nothing to save and no return from it (R167, R169). -/
def raise {W : Nat} (k : ErrorKind) (E : Engine W) : Result W := (E, .ofError k)

/-- The success of a command with a destination: `E[RD]` takes the new element, and the response returns it
(R44, R87, R103, R104, R118). -/
def complete {W : Nat} (rd : Reg) (e : Element W) (E : Engine W) : Result W := (E.write rd e, .ofElement e)

/-- A `W`-bit port carries the number `n`: `bl(n) ≤ W`, which is `n < 2^W` (R41). -/
def portCarries (W n : Nat) : Bool := decide (bl n ≤ W)

/-! Operations on the machine. -/

/-- The element in register `i` of the machine's engine. -/
abbrev State.readReg (s : State) (i : Reg) : ElementReg s.cfg.W := s.engine.read i

/-- `respond`: the engine is what the command made of it, and the command's one response is presented (R11, R44). -/
abbrev State.perform (s : State) (r : Result s.cfg.W) : State := { s with engine := r.1, rsp := some r.2 }

/-- Asserting `RESET`: every register becomes empty, no command is in flight and `RSP_VALID` is low; a response not
yet taken is lost with it (R33, R185; log entry 5). The host's side is not the engine's and stays. -/
abbrev State.resetEngine (s : State) : State := { s with engine := Engine.empty s.cfg.W, rsp := none }

/-- The host takes the response presented, if there is one, and keeps it in its own record (R44, R169). -/
abbrev State.takeResponse (s : State) : State := { s with rsp := none, record := s.record ++ s.rsp.toList }

/-- The host drives `RSP_READY` (R44). -/
abbrev State.setRspReady (s : State) (b : Bool) : State := { s with rspReady := b }

/-- The host goes on to the rest of its script. -/
abbrev State.withScript (s : State) (rest : List (HostEvent s.cfg.W)) : State := { s with script := rest }

end Sys2Proof.Machine
end

