-- ==== Sys2Proof/Machine/Operands.lean ====
section
/-! DEFINITION. How the commands read their register operands, with the tests that come before any arithmetic
(41_compat_addsub.md R100, R101, R106; 60_exceptions.md R163, R164, R168). -/

namespace Sys2Proof.Machine

/-- The one source of GFRD, which must be valid (R133, R164). -/
def source {W : Nat} (E : Engine W) (ra : Reg) : Except ErrorKind (Element W) :=
  match E.read ra with
  | some x => .ok x
  | none => .error .emptyRegister

/-- The two sources of GFEQ, which must both be valid (R131, R164). -/
def sourcePair {W : Nat} (E : Engine W) (ra rb : Reg) : Except ErrorKind (Element W × Element W) :=
  match E.read ra, E.read rb with
  | some x, some y => .ok (x, y)
  | _, _ => .error .emptyRegister

/-- `compat`: the two moduli are the same number (R100). -/
def compat {W : Nat} (x y : Element W) : Bool := decide (x.modulus = y.modulus)

/-- The two sources of GFADD, GFSUB and GFMUL: validity first, compatibility second (R101, R106). -/
def compatiblePair {W : Nat} (E : Engine W) (ra rb : Reg) : Except ErrorKind (Element W × Element W) :=
  match sourcePair E ra rb with
  | .ok (x, y) => if compat x y then .ok (x, y) else .error .incompatibleField
  | .error k => .error k

/-- A command that combines two elements of one field into a new element of that field (the common part of R103,
R104 and R118), `f` being applied to the numbers `x`, `y` and `p` of the rules. Both sources are read before the
destination is written (R191). -/
def combine {W : Nat} (f : Nat → Nat → Nat → Nat) (rd ra rb : Reg) (E : Engine W) : Result W :=
  match compatiblePair E ra rb with
  | .ok (x, y) => complete rd ⟨x.modulus, zext W (f x.value.toNat y.value.toNat x.modulus.toNat)⟩ E
  | .error k => raise k E

end Sys2Proof.Machine
end

