-- ==== Sys2Proof/Machine/AddSub.lean ====
section
/-! DEFINITION. GFADD and GFSUB, the XOR adder's commands (41_compat_addsub.md R103, R104). The sum is not reduced
again (R102; 90_conflicts.md C6). -/

namespace Sys2Proof.Machine

/-- GFADD on an engine (R103). -/
def gfaddOn {W : Nat} (rd ra rb : Reg) (E : Engine W) : Result W := combine (fun x y _ => gfadd x y) rd ra rb E

/-- GFSUB on an engine (R104). -/
def gfsubOn {W : Nat} (rd ra rb : Reg) (E : Engine W) : Result W := combine (fun x y _ => gfsub x y) rd ra rb E

/-- GFADD (R103). -/
def execGfadd (rd ra rb : Reg) (s : State) : Outcome := .next (s.perform (gfaddOn rd ra rb s.engine))

/-- GFSUB (R104). -/
def execGfsub (rd ra rb : Reg) (s : State) : Outcome := .next (s.perform (gfsubOn rd ra rb s.engine))

end Sys2Proof.Machine
end

