-- ==== Sys2Proof/Machine/Construction.lean ====
section
/-! DEFINITION. GFNEW, construction from a raw integer and a modulus (40_construction_reduction.md R87, R88). -/

namespace Sys2Proof.Machine

/-- GFNEW on an engine (R87): `InvalidModulus` exactly for a zero modulus (R88, R161), otherwise the reduced element. -/
def gfnewOn {W : Nat} (rd : Reg) (dv dm : Word W) (E : Engine W) : Result W :=
  if dm.toNat = 0 then raise .invalidModulus E else complete rd ⟨dm, zext W (reduce dv.toNat dm.toNat)⟩ E

/-- GFNEW (R87). A number that the ports cannot carry is never truncated: such an instruction is no command of this
machine, and only the host can refuse it (R55). -/
def execGfnew (rd : Reg) (dv dm : Nat) (s : State) : Outcome :=
  if portCarries s.cfg.W dv && portCarries s.cfg.W dm then
    .next (s.perform (gfnewOn rd (zext s.cfg.W dv) (zext s.cfg.W dm) s.engine))
  else .refused .operandTooWide

end Sys2Proof.Machine
end

