-- ==== Sys2Proof/Machine/Flags.lean ====
section
/-! DEFINITION. The engine has no flags (10_state.md R28). The only condition it computes is the bit `EQ` of a GFEQ
response, which is stored nowhere (43_equality_readout.md R130, R131). -/

namespace Sys2Proof.Machine

/-- `eq`: "Two Field Elements are equal iff both `value` and `modulus` match exactly" (R130). -/
def eqBit {W : Nat} (x y : Element W) : Bool := decide (x.value = y.value) && decide (x.modulus = y.modulus)

end Sys2Proof.Machine
end

