-- ==== Sys2Proof/Machine/EqualityReadout.lean ====
section
/-! DEFINITION. GFEQ and GFRD, which write no register (43_equality_readout.md R131, R133). -/

namespace Sys2Proof.Machine

/-- GFEQ on an engine (R131): elements of different fields are unequal, never an error (90_conflicts.md C1). -/
def gfeqOn {W : Nat} (ra rb : Reg) (E : Engine W) : Result W :=
  match sourcePair E ra rb with
  | .ok (x, y) => (E, .ofEq (eqBit x y))
  | .error k => raise k E

/-- GFRD on an engine (R133): the response returns the element; nothing else happens. -/
def gfrdOn {W : Nat} (ra : Reg) (E : Engine W) : Result W :=
  match source E ra with
  | .ok x => (E, .ofElement x)
  | .error k => raise k E

/-- GFEQ (R131). -/
def execGfeq (ra rb : Reg) (s : State) : Outcome := .next (s.perform (gfeqOn ra rb s.engine))

/-- GFRD (R133). -/
def execGfrd (ra : Reg) (s : State) : Outcome := .next (s.perform (gfrdOn ra s.engine))

end Sys2Proof.Machine
end

