-- ==== Sys2Proof/Machine/Multiply.lean ====
section
/-! DEFINITION. GFMUL, the multiplier's command (42_multiply.md R118). -/

namespace Sys2Proof.Machine

/-- GFMUL on an engine (R118). -/
def gfmulOn {W : Nat} (rd ra rb : Reg) (E : Engine W) : Result W := combine gfmul rd ra rb E

/-- GFMUL (R118). -/
def execGfmul (rd ra rb : Reg) (s : State) : Outcome := .next (s.perform (gfmulOn rd ra rb s.engine))

end Sys2Proof.Machine
end

