-- ==== Sys2Proof/Machine/Dispatch.lean ====
section
/-! DEFINITION. One arm for each constructor of `Instr`, each a direct call of the command's meaning. -/

namespace Sys2Proof.Machine

def exec (i : Instr) (s : State) : Host.Outcome State Fault Refusal :=
  match i with
  | .gfnew rd dv dm => Sys2Proof.Machine.execGfnew rd dv dm s
  | .gfadd rd ra rb => Sys2Proof.Machine.execGfadd rd ra rb s
  | .gfsub rd ra rb => Sys2Proof.Machine.execGfsub rd ra rb s
  | .gfmul rd ra rb => Sys2Proof.Machine.execGfmul rd ra rb s
  | .gfeq ra rb => Sys2Proof.Machine.execGfeq ra rb s
  | .gfrd ra => Sys2Proof.Machine.execGfrd ra s

end Sys2Proof.Machine
end

