-- ==== Sys2Proof/Machine/Ports.lean ====
section
/-! DEFINITION. What one host event does at the engine's ports (20_memory.md R43 to R45, R50, R51;
70_reset_and_hazards.md R185, R186, R192). -/

namespace Sys2Proof.Machine

/-- One issued command, executed whole: decoded first, then run; a word that selects no command ends with
`IllegalCommand` (R50, R64, R65, R165, R168). -/
def runCommand (s : State) (c : Command s.cfg.W) : Outcome :=
  match decode c with
  | some i => exec i s
  | none => .next (s.perform (raise .illegalCommand s.engine))

/-- `CMD_READY`: 1 exactly when no response is waiting to be taken, since between steps no command is executing
(R51). -/
def State.cmdReady (s : State) : Bool := s.rsp.isNone

/-- `RSP_VALID`: a response is presented (R44). -/
def State.rspValid (s : State) : Bool := s.rsp.isSome

/-- `RSP_VALID` and `RSP_READY` are both 1, so the host takes the response (R44). -/
def State.rspTaken (s : State) : Bool := s.rspValid && s.rspReady

/-- The effect of the host's next event, `rest` being what it does afterwards. An offered command is issued when
`CMD_READY` is 1 and otherwise waits, the script unchanged (R51, R192). A reset during a command abandons the command
without a response and empties the engine (R186). -/
def hostEvent (s : State) (e : HostEvent s.cfg.W) (rest : List (HostEvent s.cfg.W)) : Outcome :=
  match e with
  | .issue c => if s.cmdReady then runCommand (s.withScript rest) c else .next s
  | .driveRspReady b => .next ((s.withScript rest).setRspReady b)
  | .reset => .next (s.withScript rest).resetEngine
  | .resetDuring _ => .next (s.withScript rest).resetEngine

/-- The machine with command `c` first in the host's script and the engine ready to take it. -/
abbrev State.offer (s : State) (c : Command s.cfg.W) : State := { s with rsp := none, script := .issue c :: s.script }

end Sys2Proof.Machine
end

