-- ==== Sys2Proof/Machine/Step.lean ====
section
/-! DEFINITION. One step: the host takes the response presented, or its next event happens, or nothing does
(20_memory.md R44, R50, R51; 70_reset_and_hazards.md R187). -/

namespace Sys2Proof.Machine

/-- One step of the machine. A host that holds `RSP_READY` high takes a response before anything else happens
(log entry 4). With an empty script "the engine does nothing until the host issues a command" (R187). -/
def step (s : State) : Host.Outcome State Fault Refusal :=
  if s.rspTaken then .next s.takeResponse
  else
    match s.script with
    | [] => .next s
    | e :: rest => hostEvent s e rest

/-- `s` with the command of a word of the opcode table offered next and the engine ready for it, so that the very
next step runs it. The engine fetches nothing (R27, R53): this stands for the host placing a command in its script. -/
def State.withFetchWord (s : State) (nbits w : Nat) : State := s.offer (tableCommand s.cfg.W nbits w)

end Sys2Proof.Machine
end

