-- ==== Sys2Proof/Machine/HostConversions.lean ====
section
/-! DEFINITION. The host side of the interface: the conversions in front of GFNEW and behind GFRD
(44_host_conversions.md R140 to R150) and the host's own refusals (20_memory.md R55, 60_exceptions.md R162). They are
pure functions; none is a command, and none reads or writes the engine's state (R140). Text is a list of characters. -/

namespace Sys2Proof.Machine

/-- What the host reports before any command is issued. Neither is a status of the engine (R55, R150). -/
inductive HostError where
  /-- `MalformedEncoding`: a hex literal or a bit sequence that is no number (R150). -/
  | malformedEncoding
  /-- `OperandTooWide`: a number of `2^W` or more; it is never truncated (R55). -/
  | operandTooWide
  deriving DecidableEq, Repr

/-! Constructors. -/

/-- From a raw integer: the host checks "`value < 2^W` and `modulus < 2^W`" and issues GFNEW (R141, R55). -/
def construct (cfg : Config) (rd : Reg) (value modulus : Nat) : Except HostError (Command cfg.W) :=
  if cfg.Fits value ∧ cfg.Fits modulus then .ok (encode cfg.W (.gfnew rd value modulus)) else .error .operandTooWide

/-- The value of a hexadecimal digit of either case; `none` for any other character (R142, R143). -/
def hexDigitValue (c : Char) : Option Nat :=
  if 48 ≤ c.toNat ∧ c.toNat ≤ 57 then some (c.toNat - 48)
  else if 97 ≤ c.toNat ∧ c.toNat ≤ 102 then some (c.toNat - 87)
  else if 65 ≤ c.toNat ∧ c.toNat ≤ 70 then some (c.toNat - 55)
  else none

/-- The loop of `from_hex`: `v <- 16·v + digitvalue(c)`, left to right (R142). -/
def hexDigitsValue : List Char → Nat → Except HostError Nat
  | [], v => .ok v
  | c :: cs, v =>
    match hexDigitValue c with
    | some d => hexDigitsValue cs (16 * v + d)
    | none => .error .malformedEncoding

/-- `from_hex` (R142) with the grammar of R143: `0x` or `0X`, then one or more hexadecimal digits, and nothing
else. -/
def fromHex : List Char → Except HostError Nat
  | '0' :: 'x' :: c :: cs => hexDigitsValue (c :: cs) 0
  | '0' :: 'X' :: c :: cs => hexDigitsValue (c :: cs) 0
  | _ => .error .malformedEncoding

/-- `from_bits` (R144): entries most significant first, all of them checked before any packing; any length, 0 for the
empty sequence (R145). -/
def fromBits (seq : List Nat) : Except HostError Nat :=
  if seq.all (fun b => decide (b ≤ 1)) then .ok (seq.foldl (fun v b => 2 * v + b) 0) else .error .malformedEncoding

/-! Renderings. -/

/-- The digits of `v` in base `base`, most significant first and without leading zeros; none for 0. `fuel` bounds the
number of digits. -/
def digits (base : Nat) : Nat → Nat → List Nat
  | 0, _ => []
  | fuel + 1, v => if v = 0 then [] else digits base fuel (v / base) ++ [v % base]

/-- The lower-case character of a digit below 16 (R146). -/
def digitChar (d : Nat) : Char := if d < 10 then Char.ofNat (48 + d) else Char.ofNat (87 + d)

/-- A number in base `base`, `0` for zero. -/
def numeral (base v : Nat) : List Char := if v = 0 then ['0'] else (digits base (bl v) v).map digitChar

/-- `to_hex` (R146): `0x`, then the digits in base 16, lower case, without leading zeros, `0x0` for zero. -/
def toHex (rv : Nat) : List Char := '0' :: 'x' :: numeral 16 rv

/-- `to_bits` (R147): the `m = bl(RM) − 1` low bits of `RV`, most significant first. -/
def toBits (rv rm : Nat) : List Nat := (List.range (bl rm - 1)).reverse.map (fun k => (rv.testBit k).toNat)

/-- The term of a set bit `k`: `1`, `x`, or `x^k` with `k` in decimal (R148). -/
def term (k : Nat) : List Char := if k = 0 then ['1'] else if k = 1 then ['x'] else 'x' :: '^' :: numeral 10 k

/-- `to_polynomial` (R148): the terms of the set bits in descending order, joined by a plus sign between spaces, `0`
for zero. -/
def toPolynomial (v : Nat) : List Char :=
  if v = 0 then ['0']
  else List.intercalate [' ', '+', ' '] (((List.range (bl v)).reverse.filter (fun k => v.testBit k)).map term)

/-! The pseudo-commands (30_encoding.md R71). -/

/-- "text the assembler accepts that is not one command word by itself" (R71). -/
inductive Pseudo where
  | gfnewh (rd : Reg) (literal : List Char) (modulus : Nat)
  | gfnewb (rd : Reg) (bits : List Nat) (modulus : Nat)
  | gfzero (rd : Reg) (modulus : Nat)
  | gfone (rd : Reg) (modulus : Nat)
  deriving DecidableEq, Repr

/-- The expansion: host-side work followed by one GFNEW; "if the host-side work fails, no command is issued at all"
(R71). -/
def Pseudo.expand (cfg : Config) : Pseudo → Except HostError (Command cfg.W)
  | .gfnewh rd literal modulus =>
    match fromHex literal with
    | .ok v => construct cfg rd v modulus
    | .error e => .error e
  | .gfnewb rd bits modulus =>
    match fromBits bits with
    | .ok v => construct cfg rd v modulus
    | .error e => .error e
  | .gfzero rd modulus => construct cfg rd 0 modulus
  | .gfone rd modulus => construct cfg rd 1 modulus

end Sys2Proof.Machine
end

