-- ==== Sys2Proof/Machine/Assembler.lean ====
section
/-! DEFINITION. The assembler text of 30_encoding.md R69 and R71, one command a line, as a function of the host from
characters to a command. The engine never sees text. -/

namespace Sys2Proof.Machine

/-- A token of a line: a word of letters and digits, a separator, or a quoted literal. -/
inductive Token where
  | word (cs : List Char)
  | comma
  | openBracket
  | closeBracket
  | quoted (cs : List Char)
  deriving DecidableEq, Repr

/-- Where the tokenizer stands: between words, inside a word, or inside quotation marks (characters read so far, last
first). -/
inductive LexMode where
  | plain
  | inWord (acc : List Char)
  | inQuote (acc : List Char)
  deriving DecidableEq, Repr

/-- The word read so far, as a token. -/
def LexMode.flush : LexMode → List Token
  | .inWord acc => [.word acc.reverse]
  | .plain => []
  | .inQuote _ => []

/-- The mode after one more character of a word. -/
def LexMode.push (c : Char) : LexMode → LexMode
  | .inWord acc => .inWord (c :: acc)
  | .plain => .inWord [c]
  | .inQuote acc => .inQuote (c :: acc)

/-- The tokens of a line. Spaces and tabs separate words; `;` starts a comment (R69). `none` for a literal that is
not closed. -/
def tokens : LexMode → List Char → Option (List Token)
  | .inQuote _, [] => none
  | .inQuote acc, c :: cs =>
    if c = '"' then (tokens .plain cs).map (.quoted acc.reverse :: ·) else tokens (.inQuote (c :: acc)) cs
  | m, [] => some m.flush
  | m, c :: cs =>
    if c = ';' then some m.flush
    else if c = ' ' ∨ c = '\t' then (tokens .plain cs).map (m.flush ++ ·)
    else if c = ',' then (tokens .plain cs).map (m.flush ++ .comma :: ·)
    else if c = '[' then (tokens .plain cs).map (m.flush ++ .openBracket :: ·)
    else if c = ']' then (tokens .plain cs).map (m.flush ++ .closeBracket :: ·)
    else if c = '"' then (tokens (.inQuote []) cs).map (m.flush ++ ·)
    else tokens (m.push c) cs

/-- A register name `e0` .. `e15`, the number in decimal (R69). -/
def registerName (r : Reg) : List Char := 'e' :: numeral 10 r.val

/-- The register a word names. -/
def parseReg (cs : List Char) : Option Reg := (List.finRange 16).find? (fun r => registerName r = cs)

/-- Digits of a base below 11, read left to right. -/
def parseDigits (base : Nat) : List Char → Nat → Option Nat
  | [], v => some v
  | c :: cs, v =>
    if 48 ≤ c.toNat ∧ c.toNat < 48 + base then parseDigits base cs (base * v + (c.toNat - 48)) else none

/-- A number, "written `0b…` (binary), `0x…` (hexadecimal) or in decimal" (R9, R69). -/
def parseNumber (cs : List Char) : Option Nat :=
  match cs with
  | [] => none
  | '0' :: 'b' :: d :: ds => parseDigits 2 (d :: ds) 0
  | '0' :: 'x' :: _ => (fromHex cs).toOption
  | _ => parseDigits 10 cs 0

/-- The entries of a bracketed bit sequence up to its closing bracket, and what follows it (R71). The entries are
numbers; whether they are bits is for `fromBits` to say (R144). `first` is true where no entry has been read. -/
def parseEntries (first : Bool) : List Token → Option (List Nat × List Token)
  | .closeBracket :: rest => if first then some ([], rest) else none
  | .word w :: .closeBracket :: rest => (parseNumber w).map (fun n => ([n], rest))
  | .word w :: .comma :: rest =>
    match parseNumber w, parseEntries false rest with
    | some n, some (ns, after) => some (n :: ns, after)
    | _, _ => none
  | _ => none

/-- What a line of assembler text can be. -/
inductive AsmError where
  /-- The line is no line of R69 or R71. -/
  | noSuchLine
  /-- The host-side work of the line fails (R55, R71). -/
  | host (e : HostError)
  deriving DecidableEq, Repr

/-- The host's result of a constructor or a pseudo-command, as the result of its line. -/
def asmResult {W : Nat} : Option (Except HostError (Command W)) → Except AsmError (Option (Command W))
  | some (.ok c) => .ok (some c)
  | some (.error e) => .error (.host e)
  | none => .error .noSuchLine

/-- A command that has no data words to check. -/
def asmPlain (W : Nat) (i : Option Instr) : Except AsmError (Option (Command W)) :=
  asmResult (i.map (fun j => .ok (encode W j)))

/-- The mnemonics of R69 with three register operands, destination first, then left, then right. -/
def parseFormatR (mn : List Char) (d a b : Reg) : Option Instr :=
  if mn = ['g', 'f', 'a', 'd', 'd'] then some (.gfadd d a b)
  else if mn = ['g', 'f', 's', 'u', 'b'] then some (.gfsub d a b)
  else if mn = ['g', 'f', 'm', 'u', 'l'] then some (.gfmul d a b)
  else none

/-- A line of three operands: a format R command, GFNEW, or a hex construction (R69, R71). -/
def parseThree (cfg : Config) (mn d a b : List Char) : Except AsmError (Option (Command cfg.W)) :=
  if mn = ['g', 'f', 'n', 'e', 'w'] then
    asmResult ((parseReg d).bind fun rd => (parseNumber a).bind fun v => (parseNumber b).map (construct cfg rd v))
  else
    asmPlain cfg.W ((parseReg d).bind fun rd => (parseReg a).bind fun ra => (parseReg b).bind (parseFormatR mn rd ra))

/-- A line of two operands: GFEQ, or the constants zero and one of a field (R69, R71). -/
def parseTwo (cfg : Config) (mn a b : List Char) : Except AsmError (Option (Command cfg.W)) :=
  if mn = ['g', 'f', 'e', 'q'] then
    asmPlain cfg.W ((parseReg a).bind fun ra => (parseReg b).map (Instr.gfeq ra))
  else if mn = ['g', 'f', 'z', 'e', 'r', 'o'] then
    asmResult ((parseReg a).bind fun rd => (parseNumber b).map fun p => (Pseudo.gfzero rd p).expand cfg)
  else if mn = ['g', 'f', 'o', 'n', 'e'] then
    asmResult ((parseReg a).bind fun rd => (parseNumber b).map fun p => (Pseudo.gfone rd p).expand cfg)
  else .error .noSuchLine

/-- A line with a bit sequence (R71). -/
def parseBits (cfg : Config) (d : List Char) (entries : List Token) : Except AsmError (Option (Command cfg.W)) :=
  match parseReg d, parseEntries true entries with
  | some rd, some (bits, [.comma, .word p]) => asmResult ((parseNumber p).map fun m => (Pseudo.gfnewb rd bits m).expand cfg)
  | _, _ => .error .noSuchLine

/-- The command of a tokenized line; `none` for a line that holds no command (R69, R71). -/
def parseLine (cfg : Config) : List Token → Except AsmError (Option (Command cfg.W))
  | [] => .ok none
  | [.word mn, .word a] =>
    if mn = ['g', 'f', 'r', 'd'] then asmPlain cfg.W ((parseReg a).map Instr.gfrd) else .error .noSuchLine
  | [.word mn, .word a, .comma, .word b] => parseTwo cfg mn a b
  | [.word mn, .word d, .comma, .word a, .comma, .word b] => parseThree cfg mn d a b
  | [.word mn, .word d, .comma, .quoted q, .comma, .word p] =>
    if mn = ['g', 'f', 'n', 'e', 'w', 'h'] then
      asmResult ((parseReg d).bind fun rd => (parseNumber p).map fun m => (Pseudo.gfnewh rd q m).expand cfg)
    else .error .noSuchLine
  | .word mn :: .word d :: .comma :: .openBracket :: entries =>
    if mn = ['g', 'f', 'n', 'e', 'w', 'b'] then parseBits cfg d entries else .error .noSuchLine
  | _ => .error .noSuchLine

/-- The command of one line of assembler text. A command without data words gets zeros on them (log entry 10),
as the listings of the spec show (R69). -/
def assemble (cfg : Config) (line : List Char) : Except AsmError (Option (Command cfg.W)) :=
  match tokens .plain line with
  | some ts => parseLine cfg ts
  | none => .error .noSuchLine

/-- A line as the spec's listings write it: the mnemonic, a space, and the operands separated by commas (R69). -/
def asmLine (mnemonic : List Char) (operands : List (List Char)) : List Char :=
  mnemonic ++ ' ' :: List.intercalate [',', ' '] operands

end Sys2Proof.Machine
end

