-- ==== Sys2Proof/WellFormed.lean ====
section
/-! DEFINITION. Which commands an engine of width `W` can be given: the data words fit the ports
(20_memory.md R43, R55). Register numbers are in range by their type (R47, R72). -/

namespace Sys2Proof

/-- The operands fit the ports of an engine of width `cfg.W`: `DV < 2^W` and `DM < 2^W` for GFNEW, nothing to check
for a command without data words (R43, R62, R72). -/
def Instr.wellFormed (cfg : Config) : Instr → Bool
  | .gfnew _ dv dm => decide (cfg.Fits dv) && decide (cfg.Fits dm)
  | .gfadd _ _ _ => true
  | .gfsub _ _ _ => true
  | .gfmul _ _ _ => true
  | .gfeq _ _ => true
  | .gfrd _ => true

end Sys2Proof
end

