-- ==== Sys2Proof/Safety.lean ====
section
/-! DEFINITION. What counts as a good element and a good state, and the engine's own step function, in the terms the
statements use (10_state.md R24, 20_memory.md R50). -/

namespace Sys2Proof.Machine

/-- The invariant of a valid register: `MOD ≠ 0` and `bl(VAL) < bl(MOD)` (R24). -/
abbrev Element.Ok {W : Nat} (e : Element W) : Prop := e.modulus.toNat ≠ 0 ∧ bl e.value.toNat < bl e.modulus.toNat

/-- Every valid register holds a good element (R24). -/
def State.Inv (s : State) : Prop := ∀ i e, s.readReg i = some e → e.Ok

/-- An element as the pair of natural numbers it is: modulus and value (R9, R14). -/
def Element.numbers {W : Nat} (e : Element W) : Nat × Nat := (e.modulus.toNat, e.value.toNat)

/-- The events with which the host empties the engine (R185, R186). -/
def HostEvent.isReset {W : Nat} : HostEvent W → Bool
  | .issue _ => false
  | .driveRspReady _ => false
  | .reset => true
  | .resetDuring _ => true

/-- The spec's own step function, `step : RegisterFile × Command -> RegisterFile × Response` (R50), on a state type that
is the register file alone (R29). -/
def engineStep {W : Nat} (E : Engine W) (c : Command W) : Result W :=
  match decode c with
  | some (.gfnew rd _ _) => gfnewOn rd c.dv c.dm E
  | some (.gfadd rd ra rb) => gfaddOn rd ra rb E
  | some (.gfsub rd ra rb) => gfsubOn rd ra rb E
  | some (.gfmul rd ra rb) => gfmulOn rd ra rb E
  | some (.gfeq ra rb) => gfeqOn ra rb E
  | some (.gfrd ra) => gfrdOn ra E
  | none => raise .illegalCommand E

/-- "the left fold of `step` over the sequence" (R50), with the responses in issue order (R51). -/
def engineFold {W : Nat} (E : Engine W) (cs : List (Command W)) : Engine W × List (Response W) :=
  cs.foldl (fun acc c => ((engineStep acc.1 c).1, acc.2 ++ [(engineStep acc.1 c).2])) (E, [])

/-- The command word with the four fields of R60. -/
def fieldWord (op : Fin 16) (rd ra rb : Reg) : CommandWord :=
  BitVec.ofNat 16 (4096 * op.val + 256 * rd.val + 16 * ra.val + rb.val)

/-- How many 1 bits a number has (R84, R90). -/
def ones (n : Nat) : Nat := ((List.range (bl n)).filter (fun i => n.testBit i)).length

end Sys2Proof.Machine
end

