-- ==== Sys2Proof/Certificates/Slice0/Obligations.lean ====
section
/-! DEFINITION. The statements for the provers. Each docstring names the rule of spec/ it formalises. -/

open Sys2Proof Sys2Proof.Machine

/-! Encoding. -/

/-- Words written out bit by bit from the patterns of 30_encoding.md R63, `OP RD RA RB`, decode to the command they
stand for, and words with a reserved operation code or a non-zero must-be-zero field decode to nothing. -/
def Obligations.DecoderReadsWrittenWords : Prop :=
  ∀ (W : Nat) (dv dm : Word W),
    decode ⟨0b0001_1111_0000_0000#16, dv, dm⟩ = some (.gfnew 15 dv.toNat dm.toNat) ∧
    decode ⟨0b0010_0011_0001_0010#16, dv, dm⟩ = some (.gfadd 3 1 2) ∧
    decode ⟨0b0011_0100_0001_0010#16, dv, dm⟩ = some (.gfsub 4 1 2) ∧
    decode ⟨0b0100_0101_0001_0010#16, dv, dm⟩ = some (.gfmul 5 1 2) ∧
    decode ⟨0b0101_0000_0011_0100#16, dv, dm⟩ = some (.gfeq 3 4) ∧
    decode ⟨0b0110_0000_0101_0000#16, dv, dm⟩ = some (.gfrd 5) ∧
    decode ⟨0b0001_0001_0001_0000#16, dv, dm⟩ = none ∧
    decode ⟨0b0101_0001_0011_0100#16, dv, dm⟩ = none ∧
    decode ⟨0b0110_0000_0101_0001#16, dv, dm⟩ = none ∧
    decode ⟨0b0000_0000_0000_0000#16, dv, dm⟩ = none ∧
    decode ⟨0b1111_1111_1111_1111#16, dv, dm⟩ = none

/-- R68: the decoder as a function of the four fields, the encoder's formulas, and that each is the inverse of the
other: for every instruction whose operands fit the ports, and for every legal word, the data words of GFNEW included. -/
def Obligations.DecodeAndEncodeAreInverse : Prop :=
  ∀ cfg : Config,
  (∀ (op : Fin 16) (rd ra rb : Reg) (dv dm : Word cfg.W), decode ⟨fieldWord op rd ra rb, dv, dm⟩ =
    if op = 1 ∧ ra = 0 ∧ rb = 0 then some (.gfnew rd dv.toNat dm.toNat)
    else if op = 2 then some (.gfadd rd ra rb)
    else if op = 3 then some (.gfsub rd ra rb)
    else if op = 4 then some (.gfmul rd ra rb)
    else if op = 5 ∧ rd = 0 then some (.gfeq ra rb)
    else if op = 6 ∧ rd = 0 ∧ rb = 0 then some (.gfrd ra)
    else none) ∧
  (∀ (d a b : Reg) (dv dm : Nat),
    (encode cfg.W (.gfnew d dv dm)).cw = BitVec.ofNat 16 (0x1000 + 0x100 * d.val) ∧
    (encode cfg.W (.gfadd d a b)).cw = BitVec.ofNat 16 (0x2000 + 0x100 * d.val + 0x10 * a.val + b.val) ∧
    (encode cfg.W (.gfsub d a b)).cw = BitVec.ofNat 16 (0x3000 + 0x100 * d.val + 0x10 * a.val + b.val) ∧
    (encode cfg.W (.gfmul d a b)).cw = BitVec.ofNat 16 (0x4000 + 0x100 * d.val + 0x10 * a.val + b.val) ∧
    (encode cfg.W (.gfeq a b)).cw = BitVec.ofNat 16 (0x5000 + 0x10 * a.val + b.val) ∧
    (encode cfg.W (.gfrd a)).cw = BitVec.ofNat 16 (0x6000 + 0x10 * a.val)) ∧
  (∀ i : Instr, i.wellFormed cfg = true → decode (encode cfg.W i) = some i) ∧
  (∀ (c : Command cfg.W) (i : Instr), decode c = some i → (encode cfg.W i).cw = c.cw) ∧
  (∀ (c : Command cfg.W) (d : Reg) (v p : Nat), decode c = some (.gfnew d v p) → encode cfg.W (.gfnew d v p) = c)

/-- R63: a command word selects a row exactly when `w AND mask = match`, whatever the data words, and of the 65,536
words 16 select GFNEW, 4,096 each GFADD, GFSUB and GFMUL, 256 GFEQ and 16 GFRD. The rows are disjoint, since a word
decodes to one instruction. -/
def Obligations.OpcodeMapSelectsByMatchAndMask : Prop :=
  ∀ W : Nat,
  (∀ (w : CommandWord) (dv dm : Word W),
    (w &&& 0xF0FF#16 = 0x1000#16 ↔ ∃ d, decode ⟨w, dv, dm⟩ = some (.gfnew d dv.toNat dm.toNat)) ∧
    (w &&& 0xF000#16 = 0x2000#16 ↔ ∃ d a b, decode ⟨w, dv, dm⟩ = some (.gfadd d a b)) ∧
    (w &&& 0xF000#16 = 0x3000#16 ↔ ∃ d a b, decode ⟨w, dv, dm⟩ = some (.gfsub d a b)) ∧
    (w &&& 0xF000#16 = 0x4000#16 ↔ ∃ d a b, decode ⟨w, dv, dm⟩ = some (.gfmul d a b)) ∧
    (w &&& 0xFF00#16 = 0x5000#16 ↔ ∃ a b, decode ⟨w, dv, dm⟩ = some (.gfeq a b)) ∧
    (w &&& 0xFF0F#16 = 0x6000#16 ↔ ∃ a, decode ⟨w, dv, dm⟩ = some (.gfrd a))) ∧
  (let selecting := fun op : Fin 16 => (Finset.univ.filter fun f : Reg × Reg × Reg =>
    (decode (⟨fieldWord op f.1 f.2.1 f.2.2, 0, 0⟩ : Command W)).isSome = true).card
   selecting 1 = 16 ∧ selecting 2 = 4096 ∧ selecting 3 = 4096 ∧ selecting 4 = 4096 ∧ selecting 5 = 256 ∧
   selecting 6 = 16 ∧ ∀ op, op = 0 ∨ 7 ≤ op → selecting op = 0) ∧
  (∀ w : CommandWord, ∃! f : Fin 16 × Reg × Reg × Reg, w = fieldWord f.1 f.2.1 f.2.2.1 f.2.2.2)

/-- R62: the data words of a command whose `OP`, bits 15:12 of its word, is not that of GFNEW have no effect: with any
others in their place the step has the same outcome, so neither the registers nor the response nor the command's
legality depends on them. -/
def Obligations.DataWordsAreReadByGfnewOnly : Prop :=
  ∀ (s : State) (w : CommandWord) (rest : List (HostEvent s.cfg.W)) (dv dm dv' dm' : Word s.cfg.W),
    s.rsp = none → w.extractLsb' 12 4 ≠ 1#4 →
    step { s with script := .issue ⟨w, dv, dm⟩ :: rest } = step { s with script := .issue ⟨w, dv', dm'⟩ :: rest }

/-- R50: when a command is issued, which takes a ready engine, and its word decodes to an instruction, the step is the
whole execution of that instruction, on the state with the command taken from the host's script (the script is the
model's, log entry 3). -/
def Obligations.StepRunsTheDecodedCommand : Prop :=
  ∀ (s : State) (c : Command s.cfg.W) (rest : List (HostEvent s.cfg.W)) (i : Instr),
    s.script = .issue c :: rest → s.rsp = none → decode c = some i →
    step s = exec i { s with script := rest }

/-- R165, R64, R65: an issued word whose `OP` is 0 or 7..15, or which has a non-zero must-be-zero field, ends with
`IllegalCommand` and changes nothing but the response; and no other word ends with it. The fields are the bits R60
names. -/
def Obligations.IllegalWordsAndNoOthersAnswerIllegalCommand : Prop :=
  ∀ (s : State) (c : Command s.cfg.W) (rest : List (HostEvent s.cfg.W)), s.script = .issue c :: rest → s.rsp = none →
    let op := (c.cw.extractLsb' 12 4).toNat
    let rd := (c.cw.extractLsb' 8 4).toNat
    let ra := (c.cw.extractLsb' 4 4).toNat
    let rb := (c.cw.extractLsb' 0 4).toNat
    let illegal := op = 0 ∨ 7 ≤ op ∨ (op = 1 ∧ (ra ≠ 0 ∨ rb ≠ 0)) ∨ (op = 5 ∧ rd ≠ 0) ∨ (op = 6 ∧ (rd ≠ 0 ∨ rb ≠ 0))
    (illegal → step s = .next { s with script := rest, rsp := some ⟨.err .illegalCommand, false, 0, 0⟩ }) ∧
    (¬ illegal → ∃ t r, step s = .next t ∧ t.rsp = some r ∧ r.st ≠ .err .illegalCommand)

/-! The commands. -/

/-- R87, GFNEW: its encoding; with a non-zero modulus it writes `(DM, reduce(DV, DM))`, which is reduced, and responds
with it, whatever the destination held; with modulus 0 it ends with `InvalidModulus`; with a non-zero `RA` or `RB` its
word is illegal; and its assembler line gives its word with the value and the modulus on the data words. The remainder is
a number that the `W`-bit field holds whole. -/
def Obligations.GfnewConstructsTheReducedElement : Prop :=
  ∀ (s : State) (d a b : Reg) (v p : Word s.cfg.W),
    decode ⟨fieldWord 1 d 0 0, v, p⟩ = some (.gfnew d v.toNat p.toNat) ∧
    (p ≠ 0 → bl (reduce v.toNat p.toNat) < bl p.toNat ∧ ∃ r : Word s.cfg.W, r.toNat = reduce v.toNat p.toNat ∧
      exec (.gfnew d v.toNat p.toNat) s =
        .next { s with engine := ⟨s.engine.regs.set d (some ⟨p, r⟩)⟩, rsp := some ⟨.ok, false, r, p⟩ }) ∧
    (p = 0 → exec (.gfnew d v.toNat p.toNat) s = .next { s with rsp := some ⟨.err .invalidModulus, false, 0, 0⟩ }) ∧
    (a ≠ 0 ∨ b ≠ 0 → runCommand s ⟨fieldWord 1 d a b, v, p⟩ =
      .next { s with rsp := some ⟨.err .illegalCommand, false, 0, 0⟩ }) ∧
    (∀ value modulus : List Char, parseNumber value = some v.toNat → parseNumber modulus = some p.toNat →
      assemble s.cfg (asmLine "gfnew".toList [registerName d, value, modulus]) = .ok (some ⟨fieldWord 1 d 0 0, v, p⟩))

/-- R103, GFADD: its encoding and the word of its assembler line; the sum of two elements of one field is the XOR of their
values under their modulus; an empty source ends with `EmptyRegister` and two moduli that differ with `IncompatibleField`.
The destination may be a source, and both sources may be one register. -/
def Obligations.GfaddAddsTwoElements : Prop :=
  ∀ (s : State) (d a b : Reg) (dv dm : Word s.cfg.W),
    decode ⟨fieldWord 2 d a b, dv, dm⟩ = some (.gfadd d a b) ∧
    (∀ cfg, (assemble cfg (asmLine "gfadd".toList [registerName d, registerName a, registerName b])).map
      (Option.map Command.cw) = .ok (some (fieldWord 2 d a b))) ∧
    (∀ p x y, s.readReg a = some ⟨p, x⟩ → s.readReg b = some ⟨p, y⟩ → exec (.gfadd d a b) s =
      .next { s with engine := ⟨s.engine.regs.set d (some ⟨p, x ^^^ y⟩)⟩, rsp := some ⟨.ok, false, x ^^^ y, p⟩ }) ∧
    (s.readReg a = none ∨ s.readReg b = none → exec (.gfadd d a b) s =
      .next { s with rsp := some ⟨.err .emptyRegister, false, 0, 0⟩ }) ∧
    (∀ p q x y, s.readReg a = some ⟨p, x⟩ → s.readReg b = some ⟨q, y⟩ → p ≠ q → exec (.gfadd d a b) s =
      .next { s with rsp := some ⟨.err .incompatibleField, false, 0, 0⟩ })

/-- R104, GFSUB: its encoding and the word of its assembler line; "In every respect the same as GFADD except the opcode":
the difference is the XOR, with the same errors, and GFSUB and GFADD give the same outcome on every state and operands. -/
def Obligations.GfsubSubtractsTwoElements : Prop :=
  ∀ (s : State) (d a b : Reg) (dv dm : Word s.cfg.W),
    decode ⟨fieldWord 3 d a b, dv, dm⟩ = some (.gfsub d a b) ∧
    (∀ cfg, (assemble cfg (asmLine "gfsub".toList [registerName d, registerName a, registerName b])).map
      (Option.map Command.cw) = .ok (some (fieldWord 3 d a b))) ∧
    (∀ p x y, s.readReg a = some ⟨p, x⟩ → s.readReg b = some ⟨p, y⟩ → exec (.gfsub d a b) s =
      .next { s with engine := ⟨s.engine.regs.set d (some ⟨p, x ^^^ y⟩)⟩, rsp := some ⟨.ok, false, x ^^^ y, p⟩ }) ∧
    (s.readReg a = none ∨ s.readReg b = none → exec (.gfsub d a b) s =
      .next { s with rsp := some ⟨.err .emptyRegister, false, 0, 0⟩ }) ∧
    (∀ p q x y, s.readReg a = some ⟨p, x⟩ → s.readReg b = some ⟨q, y⟩ → p ≠ q → exec (.gfsub d a b) s =
      .next { s with rsp := some ⟨.err .incompatibleField, false, 0, 0⟩ }) ∧
    exec (.gfsub d a b) s = exec (.gfadd d a b) s

/-- R118, GFMUL: its encoding and the word of its assembler line; the product of two elements of one field is `gfmul` of
their values and their modulus, a number that the `W`-bit field holds whole under a non-zero modulus; the errors are those
of GFADD. -/
def Obligations.GfmulMultipliesTwoElements : Prop :=
  ∀ (s : State) (d a b : Reg) (dv dm : Word s.cfg.W),
    decode ⟨fieldWord 4 d a b, dv, dm⟩ = some (.gfmul d a b) ∧
    (∀ cfg, (assemble cfg (asmLine "gfmul".toList [registerName d, registerName a, registerName b])).map
      (Option.map Command.cw) = .ok (some (fieldWord 4 d a b))) ∧
    (∀ p x y, s.readReg a = some ⟨p, x⟩ → s.readReg b = some ⟨p, y⟩ → exec (.gfmul d a b) s =
      .next { s with
        engine := ⟨s.engine.regs.set d (some ⟨p, zext s.cfg.W (gfmul x.toNat y.toNat p.toNat)⟩)⟩,
        rsp := some ⟨.ok, false, zext s.cfg.W (gfmul x.toNat y.toNat p.toNat), p⟩ } ∧
      (p ≠ 0 → (zext s.cfg.W (gfmul x.toNat y.toNat p.toNat)).toNat = gfmul x.toNat y.toNat p.toNat)) ∧
    (s.readReg a = none ∨ s.readReg b = none → exec (.gfmul d a b) s =
      .next { s with rsp := some ⟨.err .emptyRegister, false, 0, 0⟩ }) ∧
    (∀ p q x y, s.readReg a = some ⟨p, x⟩ → s.readReg b = some ⟨q, y⟩ → p ≠ q → exec (.gfmul d a b) s =
      .next { s with rsp := some ⟨.err .incompatibleField, false, 0, 0⟩ })

/-- R131 and R130, GFEQ: its encoding and the word of its assembler line; the bit `EQ` is 1 exactly when both the values
and the moduli of two valid registers match, the status is `OK` also across fields, and no register is written; an empty
source ends with `EmptyRegister`; with a non-zero `RD` the word is illegal. -/
def Obligations.GfeqComparesTwoElements : Prop :=
  ∀ (s : State) (d a b : Reg) (dv dm : Word s.cfg.W),
    decode ⟨fieldWord 5 0 a b, dv, dm⟩ = some (.gfeq a b) ∧
    (∀ cfg, (assemble cfg (asmLine "gfeq".toList [registerName a, registerName b])).map (Option.map Command.cw) =
      .ok (some (fieldWord 5 0 a b))) ∧
    (∀ p q x y, s.readReg a = some ⟨p, x⟩ → s.readReg b = some ⟨q, y⟩ → exec (.gfeq a b) s =
      .next { s with rsp := some ⟨.ok, decide (x = y ∧ p = q), 0, 0⟩ }) ∧
    (s.readReg a = none ∨ s.readReg b = none → exec (.gfeq a b) s =
      .next { s with rsp := some ⟨.err .emptyRegister, false, 0, 0⟩ }) ∧
    (d ≠ 0 → runCommand s ⟨fieldWord 5 d a b, dv, dm⟩ =
      .next { s with rsp := some ⟨.err .illegalCommand, false, 0, 0⟩ }) ∧
    exec (.gfeq a b) s = exec (.gfeq b a) s

/-- R133, GFRD: its encoding and the word of its assembler line; it responds with the element of a valid register and
writes nothing; an empty source ends with `EmptyRegister`; with a non-zero `RD` or `RB` the word is illegal; and where
valid registers hold good elements, "`bl(RV) < bl(RM)` and `RM ≠ 0` in every successful GFRD response". -/
def Obligations.GfrdReadsAnElementOut : Prop :=
  ∀ (s : State) (d a b : Reg) (dv dm : Word s.cfg.W),
    decode ⟨fieldWord 6 0 a 0, dv, dm⟩ = some (.gfrd a) ∧
    (∀ cfg, (assemble cfg (asmLine "gfrd".toList [registerName a])).map (Option.map Command.cw) =
      .ok (some (fieldWord 6 0 a 0))) ∧
    (∀ p x, s.readReg a = some ⟨p, x⟩ → exec (.gfrd a) s = .next { s with rsp := some ⟨.ok, false, x, p⟩ } ∧
      (s.Inv → bl x.toNat < bl p.toNat ∧ p ≠ 0)) ∧
    (s.readReg a = none → exec (.gfrd a) s = .next { s with rsp := some ⟨.err .emptyRegister, false, 0, 0⟩ }) ∧
    (d ≠ 0 ∨ b ≠ 0 → runCommand s ⟨fieldWord 6 d a b, dv, dm⟩ =
      .next { s with rsp := some ⟨.err .illegalCommand, false, 0, 0⟩ })

/-! The reduction engine. -/

/-- R85: for `p ≠ 0`, `reduce(v, p)` is the remainder of the division of `v` by `p`: reduced, different from `v` by a
multiple of `p`, and the only such number; with the identities of the rule. -/
def Obligations.ReduceReturnsTheCanonicalRemainder : Prop :=
  ∀ p : Nat, p ≠ 0 →
    (∀ v, bl (reduce v p) < bl p ∧ reduce v p < 2 ^ (bl p - 1) ∧ ∃ q, v ^^^ reduce v p = clmul q p) ∧
    (∀ v r q, bl r < bl p → v ^^^ r = clmul q p → r = reduce v p) ∧
    (∀ v, reduce v p = v ↔ bl v < bl p) ∧
    (∀ v, reduce (reduce v p) p = reduce v p) ∧
    reduce 0 p = 0 ∧ reduce p p = 0 ∧
    (∀ q, reduce (clmul q p) p = 0) ∧
    (∀ u v, reduce (u ^^^ v) p = reduce u p ^^^ reduce v p)

/-- R83 and R84: each pass shifts the modulus by the difference of the bit lengths and strictly shortens the value; the
number of passes is 0 for a reduced value, and otherwise at least 1 and at most `bl(v) − bl(p) + 1 ≤ bl(v)`; it is the
number of 1 bits of the quotient; and the value after the last pass is the result. -/
def Obligations.ReductionPassesShrinkTheValueAndAreBounded : Prop :=
  ∀ v p : Nat, p ≠ 0 →
    List.IsChain (fun before after => after.1 = bl before.2 - bl p ∧ bl p ≤ bl before.2 ∧
      after.2 = before.2 ^^^ (p <<< after.1) ∧ bl after.2 < bl before.2) ((0, v) :: reduceSteps v p) ∧
    reduce v p = (((0, v) :: reduceSteps v p).getLast (List.cons_ne_nil _ _)).2 ∧
    (bl v < bl p → (reduceSteps v p).length = 0) ∧
    (bl p ≤ bl v → 1 ≤ (reduceSteps v p).length ∧ (reduceSteps v p).length ≤ bl v - bl p + 1) ∧
    (reduceSteps v p).length ≤ bl v ∧
    ∃ q, v ^^^ reduce v p = clmul q p ∧ ones q = (reduceSteps v p).length

/-- R90: the corner cases of `reduce(v, p)`, each with its result and its number of passes. -/
def Obligations.ReductionCornerCases : Prop :=
  ∀ v p k : Nat, p ≠ 0 →
    (reduce 0 p = 0 ∧ (reduceSteps 0 p).length = 0) ∧
    (bl v < bl p → reduce v p = v ∧ (reduceSteps v p).length = 0) ∧
    (bl v = bl p → reduce v p = v ^^^ p ∧ (reduceSteps v p).length = 1) ∧
    (reduce (p <<< k) p = 0 ∧ (reduceSteps (p <<< k) p).length = 1) ∧
    (reduce v 1 = 0 ∧ (reduceSteps v 1).length = ones v) ∧
    (reduce v 2 = v % 2 ∧ (reduceSteps v 2).length = ones (v >>> 1)) ∧
    (reduce v (2 ^ k) = v % 2 ^ k ∧ (reduceSteps v (2 ^ k)).length = ones (v >>> k))

/-! The multiplier. -/

/-- R116, R117 and R119: at the loop test after `k` passes `b = y >> k`, `a` is reduced and is `x·x^k` modulo `p`, and
`r` is the XOR of the `reduce(x << i, p)` with `y[i] = 1`, so it is reduced; the inner reduction is one conditional XOR;
the loop makes exactly `bl(y)` passes, at most `W − 1`; and the final reduction changes nothing. -/
def Obligations.MultiplierLoopInvariants : Prop :=
  ∀ x y p : Nat, p ≠ 0 → bl x < bl p → bl y < bl p →
    (∀ k, k ≤ bl y →
      (mulAfter x y p k).b = y >>> k ∧
      bl (mulAfter x y p k).a < bl p ∧ (mulAfter x y p k).a = reduce (x <<< k) p ∧
      bl (mulAfter x y p k).r < bl p ∧ (mulAfter x y p k).r =
        (List.range k).foldl (fun acc i => if y.testBit i then acc ^^^ reduce (x <<< i) p else acc) 0 ∧
      bl ((mulAfter x y p k).a <<< 1) ≤ bl p ∧
      reduce ((mulAfter x y p k).a <<< 1) p =
        (if bl p ≠ 1 ∧ (mulAfter x y p k).a.testBit (bl p - 2) then (mulAfter x y p k).a <<< 1 ^^^ p
         else (mulAfter x y p k).a <<< 1)) ∧
    (∀ fuel, bl y ≤ fuel → mulPassCount p fuel ⟨x, y, 0⟩ = bl y) ∧
    (∀ cfg : Config, cfg.Fits p → bl y ≤ cfg.W - 1) ∧
    reduce (mulAfter x y p (bl y)).r p = (mulAfter x y p (bl y)).r ∧
    gfmul x y p = (mulAfter x y p (bl y)).r

/-- R120: the multiplier returns the carry-less product reduced modulo `p`, which is what GFMUL writes and responds;
and the bit length of the carry-less product. -/
def Obligations.GfmulWritesTheReducedCarrylessProduct : Prop :=
  (∀ x y, clmul x y = (List.range (bl y)).foldl (fun acc i => if y.testBit i then acc ^^^ (x <<< i) else acc) 0) ∧
  (∀ x y, x ≠ 0 → y ≠ 0 → bl (clmul x y) = bl x + bl y - 1) ∧
  (∀ x, clmul x 0 = 0 ∧ clmul 0 x = 0) ∧
  (∀ (s : State) (d a b : Reg) (p x y : Word s.cfg.W), p ≠ 0 → bl x.toNat < bl p.toNat → bl y.toNat < bl p.toNat →
    s.readReg a = some ⟨p, x⟩ → s.readReg b = some ⟨p, y⟩ →
    ∃ r : Word s.cfg.W, r.toNat = reduce (clmul x.toNat y.toNat) p.toNat ∧ exec (.gfmul d a b) s =
      .next { s with engine := ⟨s.engine.regs.set d (some ⟨p, r⟩)⟩, rsp := some ⟨.ok, false, r, p⟩ })

/-- R121: `a * b == b * a` and `a * one == a` for GFMUL on good elements of any modulus, and the further laws of the
rule for the function: zero, associativity, distributivity over the XOR adder. -/
def Obligations.MultiplicationLaws : Prop :=
  (∀ (s : State) (d a b : Reg), s.Inv → exec (.gfmul d a b) s = exec (.gfmul d b a) s) ∧
  (∀ (s : State) (d a b : Reg) (p x one : Word s.cfg.W), s.Inv → one.toNat = 1 →
    s.readReg a = some ⟨p, x⟩ → s.readReg b = some ⟨p, one⟩ → exec (.gfmul d a b) s =
      .next { s with engine := ⟨s.engine.regs.set d (some ⟨p, x⟩)⟩, rsp := some ⟨.ok, false, x, p⟩ }) ∧
  (∀ x y z p : Nat, p ≠ 0 → bl x < bl p → bl y < bl p → bl z < bl p →
    gfmul x 0 p = 0 ∧ gfmul 0 x p = 0 ∧
    gfmul (gfmul x y p) z p = gfmul x (gfmul y z p) p ∧
    gfmul x (gfadd y z) p = gfadd (gfmul x y p) (gfmul x z p))

/-- R123: with a reducible modulus the commands compute in a ring with zero divisors: the rule's three products are
written as 0. -/
def Obligations.ReducibleModuliHaveZeroDivisors : Prop :=
  ∀ (s : State) (d a b : Reg) (p x y : Word s.cfg.W),
    (p.toNat, x.toNat, y.toNat) ∈ [(0b110, 0b10, 0b11), (0b101, 0b11, 0b11), (0b100, 0b10, 0b10)] →
    s.readReg a = some ⟨p, x⟩ → s.readReg b = some ⟨p, y⟩ → exec (.gfmul d a b) s =
      .next { s with engine := ⟨s.engine.regs.set d (some ⟨p, 0⟩)⟩, rsp := some ⟨.ok, false, 0, p⟩ }

/-! The adder's laws. -/

/-- R105: `(a + b) + b == a`, as GFADD, GFADD and GFEQ answer it; `a + a == zero`; `a + b == b + a`; zero is the
identity and addition is associative. -/
def Obligations.AdditionLaws : Prop :=
  (∀ (s : State) (d a b : Reg) (p x y : Word s.cfg.W), s.readReg a = some ⟨p, x⟩ → s.readReg b = some ⟨p, y⟩ →
    d ≠ a → d ≠ b → ∃ t u w, exec (.gfadd d a b) s = .next t ∧ exec (.gfadd d d b) t = .next u ∧
      exec (.gfeq d a) u = .next w ∧ w.rsp = some ⟨.ok, true, 0, 0⟩) ∧
  (∀ (s : State) (d a : Reg) (p x : Word s.cfg.W), s.readReg a = some ⟨p, x⟩ → exec (.gfadd d a a) s =
    .next { s with engine := ⟨s.engine.regs.set d (some ⟨p, 0⟩)⟩, rsp := some ⟨.ok, false, 0, p⟩ }) ∧
  (∀ (s : State) (d a b : Reg), exec (.gfadd d a b) s = exec (.gfadd d b a) s) ∧
  (∀ (s : State) (d a b : Reg) (p x : Word s.cfg.W), s.readReg a = some ⟨p, x⟩ → s.readReg b = some ⟨p, 0⟩ →
    exec (.gfadd d a b) s =
      .next { s with engine := ⟨s.engine.regs.set d (some ⟨p, x⟩)⟩, rsp := some ⟨.ok, false, x, p⟩ }) ∧
  (∀ x y z : Nat, gfadd (gfadd x y) z = gfadd x (gfadd y z))

/-! Errors. -/

/-- R168 with R161, R163, R164: every issued command gets exactly one status, the first of `IllegalCommand`,
`EmptyRegister` and `IncompatibleField` whose condition holds, `InvalidModulus` for a legal GFNEW with modulus 0, and
`OK` when none does. -/
def Obligations.OneStatusInPriorityOrder : Prop :=
  ∀ (s : State) (c : Command s.cfg.W) (rest : List (HostEvent s.cfg.W)), s.script = .issue c :: rest → s.rsp = none →
    ∃ t r, step s = .next t ∧ t.rsp = some r ∧
      match decode c with
      | none => r.st = .err .illegalCommand
      | some i =>
        if ∃ a ∈ i.sources, s.readReg a = none then r.st = .err .emptyRegister
        else match i with
          | .gfadd _ a b | .gfsub _ a b | .gfmul _ a b =>
            r.st = if (s.readReg a).map Element.modulus ≠ (s.readReg b).map Element.modulus
              then .err .incompatibleField else .ok
          | .gfnew _ _ p => r.st = if p = 0 then .err .invalidModulus else .ok
          | .gfeq _ _ => r.st = .ok
          | .gfrd _ => r.st = .ok

/-- R166: an issued command whose response has a non-zero status writes no register, responds `(code, 0, 0, 0)` and
changes nothing else: the next state is the old one with the command taken from the script and that response
presented. -/
def Obligations.AnErrorHasNoOtherEffect : Prop :=
  ∀ (s t : State) (c : Command s.cfg.W) (rest : List (HostEvent s.cfg.W)) (r : Response t.cfg.W),
    s.script = .issue c :: rest → s.rsp = none → step s = .next t → t.rsp = some r → r.st ≠ .ok →
    t = { s with script := rest, rsp := some ⟨r.st, false, 0, 0⟩ }

/-- R169: an error is not sticky. When a command fails and the host takes its response, every further run is that of the
machine to which the command was never issued, but for the host's record of the response. That taking the response is a
step, and the record, are the model's (log entries 3 and 4). -/
def Obligations.ErrorsAreNotSticky : Prop :=
  ∀ (s t : State) (c : Command s.cfg.W) (rest : List (HostEvent s.cfg.W)) (r : Response t.cfg.W) (n : Nat),
    s.script = .issue c :: rest → s.rsp = none → s.rspReady = true → step s = .next t → t.rsp = some r → r.st ≠ .ok →
    Sys2Proof.core.run (n + 2) s =
      Sys2Proof.core.run n { s with script := rest, record := s.record ++ [⟨r.st, false, 0, 0⟩] }

/-- R160: the six status codes have the numbers of the table, and an issued command puts 0, 1, 3, 4 or 5 on `ST`,
never 2, 6 or 7. -/
def Obligations.StatusCodesOfTheEngine : Prop :=
  (Status.ok.code = 0#3 ∧ (Status.err .invalidModulus).code = 1#3 ∧ (Status.err .malformedEncoding).code = 2#3 ∧
    (Status.err .incompatibleField).code = 3#3 ∧ (Status.err .emptyRegister).code = 4#3 ∧
    (Status.err .illegalCommand).code = 5#3) ∧
  ∀ (s : State) (c : Command s.cfg.W) (rest : List (HostEvent s.cfg.W)), s.script = .issue c :: rest → s.rsp = none →
    ∃ t r, step s = .next t ∧ t.rsp = some r ∧ r.st.code ≠ 2#3 ∧ r.st.code ≠ 6#3 ∧ r.st.code ≠ 7#3

/-! What commands change. -/

/-- R26: a command changes at most its destination register, which only GFNEW, GFADD, GFSUB and GFMUL have, and on an
error not even that; every other register, source registers among them, and everything else of the machine but the
response are as before. What it responds and writes depends on the registers of the `reads` column alone: in any other
machine of the width that holds the same there, it responds and writes the same. -/
def Obligations.CommandsWriteOnlyTheirDestination : Prop :=
  ∀ (i : Instr) (s t : State), exec i s = .next t →
    ∃ (E : Engine s.cfg.W) (r : Response s.cfg.W), t = { s with engine := E, rsp := some r } ∧
    (∀ j : Reg, (match i with
        | .gfnew d _ _ | .gfadd d _ _ | .gfsub d _ _ | .gfmul d _ _ => j ≠ d
        | .gfeq _ _ | .gfrd _ => True) → E.read j = s.readReg j) ∧
    (r.st ≠ .ok → E = s.engine) ∧
    (∀ (F : Engine s.cfg.W) (rsp : Option (Response s.cfg.W)) (rdy : Bool) (script : List (HostEvent s.cfg.W))
        (record : List (Response s.cfg.W)),
      (match i with
        | .gfnew _ _ _ => True
        | .gfadd _ a b | .gfsub _ a b | .gfmul _ a b | .gfeq a b => F.read a = s.readReg a ∧ F.read b = s.readReg b
        | .gfrd a => F.read a = s.readReg a) →
      ∃ G : Engine s.cfg.W, exec i ⟨s.cfg, F, rsp, rdy, script, record⟩ = .next ⟨s.cfg, G, some r, rdy, script, record⟩ ∧
        match i with
        | .gfnew d _ _ | .gfadd d _ _ | .gfsub d _ _ | .gfmul d _ _ => r.st = .ok → G.read d = E.read d
        | .gfeq _ _ | .gfrd _ => G = F)

/-- R44 and R190: a successful GFNEW, GFADD, GFSUB or GFMUL leaves in its destination the element its response returns,
and a GFRD of the destination right after it gives that response again. -/
def Obligations.AResultIsReadBackByTheNextCommand : Prop :=
  ∀ (i : Instr) (s t : State) (d : Reg) (r : Response t.cfg.W), i.dest = some d → exec i s = .next t →
    t.rsp = some r → r.st = .ok → t.readReg d = some ⟨r.rm, r.rv⟩ ∧ r.eq = false ∧ exec (.gfrd d) t = .next t

/-- R191: with the destination a source, or both, the old contents are the operands: `gfadd ed, ed, ed` leaves zero,
`gfmul ed, ed, ed` the square, and a product written over its left or its right operand is that of the old contents. -/
def Obligations.DestinationMayBeASource : Prop :=
  ∀ (s : State) (a b : Reg) (p x y : Word s.cfg.W), s.Inv → s.readReg a = some ⟨p, x⟩ → s.readReg b = some ⟨p, y⟩ →
    ∃ t1 t2 t3 t4, exec (.gfadd a a a) s = .next t1 ∧ (t1.readReg a).map Element.numbers = some (p.toNat, 0) ∧
      exec (.gfmul a a a) s = .next t2 ∧
      (t2.readReg a).map Element.numbers = some (p.toNat, reduce (clmul x.toNat x.toNat) p.toNat) ∧
      exec (.gfmul a a b) s = .next t3 ∧
      (t3.readReg a).map Element.numbers = some (p.toNat, reduce (clmul x.toNat y.toNat) p.toNat) ∧
      exec (.gfmul b a b) s = .next t4 ∧
      (t4.readReg b).map Element.numbers = some (p.toNat, reduce (clmul x.toNat y.toNat) p.toNat)

/-- R48: GFRD and GFEQ change nothing but the response, and repeated later, on a machine of the width whose registers that
they name have not been written in between, they give the same response. -/
def Obligations.ReadsHaveNoSideEffects : Prop :=
  ∀ (i : Instr) (s : State), (∃ a, i = .gfrd a) ∨ (∃ a b, i = .gfeq a b) →
    ∃ r : Response s.cfg.W, exec i s = .next { s with rsp := some r } ∧
    ∀ (F : Engine s.cfg.W) (rsp : Option (Response s.cfg.W)) (rdy : Bool) (script : List (HostEvent s.cfg.W))
      (record : List (Response s.cfg.W)), (∀ a ∈ i.sources, F.read a = s.readReg a) →
      exec i ⟨s.cfg, F, rsp, rdy, script, record⟩ = .next ⟨s.cfg, F, some r, rdy, script, record⟩

/-- R177: GFRD on every register shows all the state there is: two engines of one width that answer every GFRD alike are
the same. -/
def Obligations.GfrdShowsAllOfTheState : Prop :=
  ∀ (s : State) (F : Engine s.cfg.W),
    (∀ a r r', exec (.gfrd a) s = .next { s with rsp := some r } →
      exec (.gfrd a) { s with engine := F } = .next { s with engine := F, rsp := some r' } → r = r') →
    s.engine = F

/-- R92: GFNEW is the only way a modulus enters the engine: after a step every valid register has its old modulus, or
that of another register, or the data word `DM` of a GFNEW just issued for it. -/
def Obligations.ModuliEnterOnlyThroughGfnew : Prop :=
  ∀ (s t : State) (j : Reg) (e : Element t.cfg.W), step s = .next t → t.readReg j = some e →
    (∃ (k : Reg) (e' : Element s.cfg.W), s.readReg k = some e' ∧ e'.modulus.toNat = e.modulus.toNat) ∨
    (∃ c rest v, s.script = .issue c :: rest ∧ decode c = some (.gfnew j v e.modulus.toNat))

/-- R23: a register becomes empty only by reset, and becomes valid only as the destination of a successful GFNEW, GFADD,
GFSUB or GFMUL. -/
def Obligations.WhenRegistersBecomeEmptyOrValid : Prop :=
  ∀ (s t : State) (j : Reg), step s = .next t →
    (s.readReg j ≠ none → t.readReg j = none →
      ∃ e rest, s.script = e :: rest ∧ (e = .reset ∨ ∃ c, e = .resetDuring c)) ∧
    (s.readReg j = none → t.readReg j ≠ none → ∃ c rest i r, s.script = .issue c :: rest ∧ decode c = some i ∧
      ((∃ v p, i = .gfnew j v p) ∨ (∃ a b, i = .gfadd j a b) ∨ (∃ a b, i = .gfsub j a b) ∨ (∃ a b, i = .gfmul j a b)) ∧
      t.rsp = some r ∧ r.st = .ok)

/-- R188, item 2: while every register is empty, the only command that can succeed is GFNEW. -/
def Obligations.TheFirstSuccessIsAGfnew : Prop :=
  ∀ (i : Instr) (s t : State) (r : Response t.cfg.W), (∀ a : Reg, s.readReg a = none) → exec i s = .next t →
    t.rsp = some r → r.st = .ok → ∃ d v p, i = .gfnew d v p

/-! Reset and the ports. -/

/-- R33: after reset every register is empty, and no command is in flight: the engine is ready for one and presents no
response. -/
def Obligations.StateAfterReset : Prop :=
  (∀ i : Reg, State.reset.readReg i = none) ∧ State.reset.cmdReady = true ∧ State.reset.rspValid = false

/-- R185 and R186: asserting `RESET`, whether the engine is idle or executing a command, empties all sixteen registers
whatever they held, leaves the engine ready and `RSP_VALID` low, and produces no response for an abandoned command: the
host's record has none. The premise is that no response is being taken, which in the model happens first (log
entry 4); that a response not taken is lost is log entry 5. -/
def Obligations.ResetEmptiesTheEngine : Prop :=
  ∀ (s : State) (c : Command s.cfg.W) (rest : List (HostEvent s.cfg.W)),
    s.script = .reset :: rest ∨ s.script = .resetDuring c :: rest → s.rspTaken = false →
    ∃ E : Engine s.cfg.W, step s = .next { s with engine := E, rsp := none, script := rest } ∧
      (∀ i : Reg, E.read i = none) ∧
      State.cmdReady { s with engine := E, rsp := none, script := rest } = true ∧
      State.rspValid { s with engine := E, rsp := none, script := rest } = false

/-- R187 and R192: the engine does nothing while the host does nothing. A command offered while a response waits to be
taken is not issued: while the host does not take the response nothing changes, and once it has taken it the command is
issued and run. That taking is a step of its own is the model's (log entry 4). -/
def Obligations.OfferedCommandsWaitForTheResponseToBeTaken : Prop :=
  ∀ s : State, (s.script = [] → s.rsp = none → step s = .next s) ∧
    (∀ c rest r, s.script = .issue c :: rest → s.rsp = some r → s.cmdReady = false ∧
      (s.rspReady = false → step s = .next s) ∧
      (s.rspReady = true → step s = .next { s with rsp := none, record := s.record ++ [r] } ∧
        State.cmdReady { s with rsp := none, record := s.record ++ [r] } = true ∧
        step { s with rsp := none, record := s.record ++ [r] } =
          runCommand { s with rsp := none, record := s.record ++ [r], script := rest } c))

/-- R50: the engine's behaviour on one command is a function of the register file and the command: the step function of
the rule says what the registers and the response become, and the rest of the state plays no part. -/
def Obligations.AStepIsAFunctionOfRegistersAndCommand : Prop :=
  ∀ (s : State) (c : Command s.cfg.W) (rest : List (HostEvent s.cfg.W)), s.script = .issue c :: rest → s.rsp = none →
    step s = .next { s with
      engine := (engineStep s.engine c).1, rsp := some (engineStep s.engine c).2, script := rest }

/-- R50 and R51: a host that issues commands and takes every response gets exactly one response for each, in issue order,
and the behaviour is the left fold of the step function over the commands. Each command takes two steps, one that runs it
and one in which its response is taken, which is the model's (log entries 3 and 4). -/
def Obligations.OneResponsePerCommandInIssueOrder : Prop :=
  ∀ (s : State) (cs : List (Command s.cfg.W)) (rest : List (HostEvent s.cfg.W)),
    s.script = cs.map HostEvent.issue ++ rest → s.rsp = none → s.rspReady = true →
    (engineFold s.engine cs).2.length = cs.length ∧
    Sys2Proof.core.run (2 * cs.length) s = .next { s with
      engine := (engineFold s.engine cs).1, script := rest, record := s.record ++ (engineFold s.engine cs).2 }

/-- R197: every step answers a next state, and an issued command is complete after one step, with its response: no
fault, no refusal, no hang. -/
def Obligations.EveryCommandCompletesWithAResponse : Prop :=
  ∀ s : State, (∃ t, step s = .next t) ∧
    (∀ c rest, s.script = .issue c :: rest → s.rsp = none →
      ∃ E r, step s = .next { s with engine := E, rsp := some r, script := rest })

/-! Invariants. -/

/-- R24 at reset: no register is valid, so every valid register holds a good element. -/
def Obligations.ReducedElementsAtReset : Prop := State.reset.Inv

/-- R24 and R25: every step keeps, in every valid register, a non-zero modulus and a value shorter than it. -/
def Obligations.StepKeepsReducedElements : Prop :=
  ∀ s t : State, s.Inv → step s = .next t → t.Inv

/-- R8 and R33: the reset state exists at every width, `State.reset` is the one at the width of the engine, which is at
least 1 and otherwise open (log entry 13), and reset gives no register a number. -/
def Obligations.WidthFitsAtReset : Prop :=
  State.reset = State.resetOf Config.engine ∧ 1 ≤ State.reset.cfg.W ∧
    ∀ cfg : Config, (State.resetOf cfg).cfg = cfg ∧ (State.resetOf cfg).Inv ∧
      ∀ i, ((State.resetOf cfg).readReg i).map Element.numbers = none

/-- R42 and R20: no step changes the width, every number in a register is below `2^W`, and nothing is truncated: after a
successful command the destination holds exactly the numbers that the algorithms give on natural numbers without bound.
The premise is the invariant of R24. That the width stands in the state is the model's (log entry 13). -/
def Obligations.StepKeepsWidth : Prop :=
  ∀ s t : State, s.Inv → step s = .next t → t.cfg = s.cfg ∧
    (∀ i p x, (t.readReg i).map Element.numbers = some (p, x) → p < 2 ^ s.cfg.W ∧ x < 2 ^ s.cfg.W) ∧
    ∀ c rest i, s.script = .issue c :: rest → s.rsp = none → decode c = some i →
      match i with
      | .gfnew d v p => p ≠ 0 → (t.readReg d).map Element.numbers = some (p, reduce v p)
      | .gfadd d a b | .gfsub d a b => ∀ p x y, (s.readReg a).map Element.numbers = some (p, x) →
        (s.readReg b).map Element.numbers = some (p, y) → (t.readReg d).map Element.numbers = some (p, x ^^^ y)
      | .gfmul d a b => ∀ p x y, (s.readReg a).map Element.numbers = some (p, x) →
        (s.readReg b).map Element.numbers = some (p, y) → (t.readReg d).map Element.numbers = some (p, gfmul x y p)
      | .gfeq _ _ | .gfrd _ => True

/-- R42: no intermediate value needs more than `W` bits either: every shifted modulus and every value inside `reduce`,
the sum of reduced operands, and `a << 1`, `a`, `b` and `r` inside `gfmul` on reduced operands. -/
def Obligations.IntermediatesFitTheWidth : Prop :=
  ∀ (cfg : Config) (v p x y : Nat), cfg.Fits v → cfg.Fits p → p ≠ 0 → bl x < bl p → bl y < bl p →
    (∀ q ∈ reduceSteps v p, cfg.Fits (p <<< q.1) ∧ cfg.Fits q.2) ∧
    cfg.Fits (reduce v p) ∧ cfg.Fits (gfadd x y) ∧
    (∀ k, cfg.Fits ((mulAfter x y p k).a <<< 1) ∧ cfg.Fits (mulAfter x y p k).a ∧ cfg.Fits (mulAfter x y p k).b ∧
      cfg.Fits (mulAfter x y p k).r)

/-! The host side. -/

/-- R149: for every valid register that holds a good element, constructing from its hex rendering or from its bit-vector
rendering, with its modulus, issues a command that leaves the same element in the destination. -/
def Obligations.EncodingRoundTrips : Prop :=
  ∀ (s : State) (i d : Reg) (p v : Word s.cfg.W), s.Inv → s.readReg i = some ⟨p, v⟩ →
    fromHex (toHex v.toNat) = .ok v.toNat ∧ fromBits (toBits v.toNat p.toNat) = .ok v.toNat ∧
    ∃ (c : Command s.cfg.W) (E : Engine s.cfg.W) (r : Response s.cfg.W),
      (Pseudo.gfnewh d (toHex v.toNat) p.toNat).expand s.cfg = .ok c ∧
      (Pseudo.gfnewb d (toBits v.toNat p.toNat) p.toNat).expand s.cfg = .ok c ∧
      runCommand s c = .next { s with engine := E, rsp := some r } ∧ E.read d = some ⟨p, v⟩ ∧
      exec (.gfeq d i) { s with engine := E, rsp := some r } =
        .next { s with engine := E, rsp := some ⟨.ok, true, 0, 0⟩ }

/-- R142 and R143: the accepted hex literals are exactly `0x` or `0X` followed by one or more hexadecimal digits of either
case, and mean their digits in base 16, so that leading zeros carry no meaning; everything else is
`MalformedEncoding`. -/
def Obligations.HexLiteralsAcceptedExactlyByTheGrammar : Prop :=
  ∀ cs : List Char,
    let literal := fun x ds => cs = '0' :: x :: ds ∧ (x = 'x' ∨ x = 'X') ∧ ds ≠ [] ∧
      ∀ c ∈ ds, ('0' ≤ c ∧ c ≤ '9') ∨ ('a' ≤ c ∧ c ≤ 'f') ∨ ('A' ≤ c ∧ c ≤ 'F')
    let digit := fun c : Char => if c ≤ '9' then c.toNat - 48 else if c ≤ 'F' then c.toNat - 55 else c.toNat - 87
    (∀ x ds, literal x ds → fromHex cs = .ok (ds.foldl (fun v c => 16 * v + digit c) 0)) ∧
    ((¬ ∃ x ds, literal x ds) → fromHex cs = .error .malformedEncoding)

/-- R146: the hex rendering is `0x` and the digits of the value in base 16, lower case and without leading zeros, `0x0`
for zero, so it lies inside the grammar of R143. -/
def Obligations.HexRenderingIsCanonical : Prop :=
  ∀ v : Nat, ∃ ds, toHex v = '0' :: 'x' :: ds ∧ ds ≠ [] ∧
    (∀ c ∈ ds, ('0' ≤ c ∧ c ≤ '9') ∨ ('a' ≤ c ∧ c ≤ 'f')) ∧
    (v = 0 → ds = ['0']) ∧ (v ≠ 0 → ds.head? ≠ some '0') ∧
    ds.foldl (fun n c => 16 * n + if c ≤ '9' then c.toNat - 48 else c.toNat - 87) 0 = v

/-- R144 and R145: a sequence with an entry that is neither 0 nor 1 is `MalformedEncoding`; any other, of any length, is
the sum of `b_j · 2^j`, `b_0` being the last entry, and the empty sequence is 0. -/
def Obligations.BitSequencesPackMostSignificantFirst : Prop :=
  ∀ seq : List Nat,
    ((∃ b ∈ seq, b ≠ 0 ∧ b ≠ 1) → fromBits seq = .error .malformedEncoding) ∧
    ((∀ b ∈ seq, b = 0 ∨ b = 1) →
      fromBits seq = .ok (∑ j ∈ Finset.range seq.length, (seq.reverse[j]?.getD 0) * 2 ^ j)) ∧
    fromBits [] = .ok 0

/-- R147: `to_bits(RV, RM)` has exactly `m = bl(RM) − 1` entries, `RV[m−1]` first and `RV[0]` last. -/
def Obligations.BitVectorHasTheWidthOfTheDegree : Prop :=
  ∀ rv rm : Nat, (toBits rv rm).length = bl rm - 1 ∧
    ∀ j, j < bl rm - 1 → (toBits rv rm)[j]? = some (rv.testBit (bl rm - 1 - 1 - j)).toNat

/-- R148: zero renders as `0`; a value with leading bit `k` renders as the term of `k`, which is `1`, `x`, or `x^k` with
`k` in decimal, followed by the terms of the lower bits after ` + `. Decimal numerals have no padding and read back as the
number. -/
def Obligations.PolynomialRenderingListsTermsInDescendingOrder : Prop :=
  toPolynomial 0 = ['0'] ∧
  (∀ k v : Nat, bl v ≤ k → toPolynomial (2 ^ k ^^^ v) =
    (if k = 0 then ['1'] else if k = 1 then ['x'] else ['x', '^'] ++ numeral 10 k) ++
    (if v = 0 then [] else [' ', '+', ' '] ++ toPolynomial v)) ∧
  (∀ k : Nat, parseDigits 10 (numeral 10 k) 0 = some k ∧ (k ≠ 0 → (numeral 10 k).head? ≠ some '0'))

/-- R9: a number written in binary after `0b`, in hexadecimal after `0x` or in decimal is read as that number. -/
def Obligations.NumbersAreReadInThreeBases : Prop :=
  ∀ v : Nat, parseNumber ('0' :: 'b' :: numeral 2 v) = some v ∧ parseNumber (toHex v) = some v ∧
    parseNumber (numeral 10 v) = some v

/-- R71: each pseudo-command is its host-side work followed by one GFNEW; where that work fails, no command is given.
A number of `2^W` or more is refused as in R55. That a literal may hold any character but a quotation mark, a semicolon
among them, and that entries of a bit sequence may be any numbers, is the model's reading of the text (log entry 11). -/
def Obligations.PseudoCommandsExpandToOneGfnew : Prop :=
  ∀ (cfg : Config) (d : Reg) (modulus : List Char) (p : Nat), parseNumber modulus = some p →
    assemble cfg (asmLine "gfzero".toList [registerName d, modulus]) =
      (if cfg.Fits p then .ok (some ⟨fieldWord 1 d 0 0, 0, zext cfg.W p⟩) else .error (.host .operandTooWide)) ∧
    assemble cfg (asmLine "gfone".toList [registerName d, modulus]) =
      (if cfg.Fits p then .ok (some ⟨fieldWord 1 d 0 0, zext cfg.W 1, zext cfg.W p⟩) else .error (.host .operandTooWide)) ∧
    (∀ literal, '"' ∉ literal →
      assemble cfg (asmLine "gfnewh".toList [registerName d, '"' :: literal ++ ['"'], modulus]) =
        match fromHex literal with
        | .ok v => if cfg.Fits v ∧ cfg.Fits p then .ok (some ⟨fieldWord 1 d 0 0, zext cfg.W v, zext cfg.W p⟩)
          else .error (.host .operandTooWide)
        | .error _ => .error (.host .malformedEncoding)) ∧
    (∀ bits : List Nat,
      assemble cfg (asmLine "gfnewb".toList [registerName d,
        '[' :: List.intercalate [',', ' '] (bits.map (numeral 10)) ++ [']'], modulus]) =
        match fromBits bits with
        | .ok v => if cfg.Fits v ∧ cfg.Fits p then .ok (some ⟨fieldWord 1 d 0 0, zext cfg.W v, zext cfg.W p⟩)
          else .error (.host .operandTooWide)
        | .error _ => .error (.host .malformedEncoding))

/-- R55: the host refuses a value or a modulus of `2^W` or more with `OperandTooWide`, and passes any other on whole,
never truncated. -/
def Obligations.TheHostRefusesWideOperands : Prop :=
  ∀ (cfg : Config) (d : Reg) (value modulus : Nat),
    (2 ^ cfg.W ≤ value ∨ 2 ^ cfg.W ≤ modulus → construct cfg d value modulus = .error .operandTooWide) ∧
    (value < 2 ^ cfg.W → modulus < 2 ^ cfg.W →
      ∃ v p : Word cfg.W, v.toNat = value ∧ p.toNat = modulus ∧
        construct cfg d value modulus = .ok ⟨fieldWord 1 d 0 0, v, p⟩)

/-- R55: the machine meets no number of `2^W` or more. What a command decodes to fits the ports, and no step refuses; an
instruction with a wider operand is no command, and `exec` of it is the refusal of that name, which is the model's (log
entry 13). -/
def Obligations.WideInstructionsNeverReachTheEngine : Prop :=
  (∀ (cfg : Config) (c : Command cfg.W) (i : Instr), decode c = some i → i.wellFormed cfg = true) ∧
  (∀ (s : State) (r : Refusal), step s ≠ .refused r) ∧
  (∀ (s : State) (i : Instr), i.wellFormed s.cfg = false → exec i s = .refused .operandTooWide) ∧
  (∀ (s : State) (i : Instr), i.wellFormed s.cfg = true → ∃ t, exec i s = .next t)
end

