-- ==== Sys2Proof/Laws/Assembler.lean ====
section
/-! SUPPORT. How a line is cut into tokens: a run of word characters becomes one word, and the separators of R69 end it.
Register names and numbers are made of word characters. -/

namespace Sys2Proof.Machine

/-- A character that is no separator, comment sign or quotation mark. -/
def IsWordChar (c : Char) : Prop := c ≠ ';' ∧ c ≠ ' ' ∧ c ≠ '\t' ∧ c ≠ ',' ∧ c ≠ '[' ∧ c ≠ ']' ∧ c ≠ '"'

/-- A run of word characters is pushed onto the word being read. -/
theorem tokens_inWord {cs : List Char} (h : ∀ c ∈ cs, IsWordChar c) (acc rest : List Char) :
    tokens (.inWord acc) (cs ++ rest) = tokens (.inWord (cs.reverse ++ acc)) rest := by
  induction cs generalizing acc with
  | nil => rfl
  | cons c cs ih =>
    obtain ⟨h1, h2, h3, h4, h5, h6, h7⟩ := h c (List.mem_cons_self ..)
    rw [List.cons_append, tokens]
    · simp only [h1, h2, h3, h4, h5, h6, h7, or_self, if_false, LexMode.push]
      rw [ih fun d hd => h d (List.mem_cons_of_mem _ hd)]
      simp
    · rintro acc' ⟨⟩

/-- A run of word characters after a separator starts a word. -/
theorem tokens_word {cs : List Char} (ne : cs ≠ []) (h : ∀ c ∈ cs, IsWordChar c) (rest : List Char) :
    tokens .plain (cs ++ rest) = tokens (.inWord cs.reverse) rest := by
  cases cs with
  | nil => exact absurd rfl ne
  | cons c cs =>
    obtain ⟨h1, h2, h3, h4, h5, h6, h7⟩ := h c (List.mem_cons_self ..)
    rw [List.cons_append, tokens]
    · simp only [h1, h2, h3, h4, h5, h6, h7, or_self, if_false, LexMode.push]
      rw [tokens_inWord fun d hd => h d (List.mem_cons_of_mem _ hd)]
      simp
    · rintro acc' ⟨⟩

@[simp] theorem tokens_inWord_nil (acc : List Char) : tokens (.inWord acc) [] = some [.word acc.reverse] := rfl

@[simp] theorem tokens_inWord_space (acc rest : List Char) :
    tokens (.inWord acc) (' ' :: rest) = (tokens .plain rest).map (.word acc.reverse :: ·) := rfl

@[simp] theorem tokens_inWord_comma (acc rest : List Char) :
    tokens (.inWord acc) (',' :: rest) = (tokens .plain rest).map fun ts => .word acc.reverse :: .comma :: ts := rfl

@[simp] theorem tokens_inWord_closeBracket (acc rest : List Char) :
    tokens (.inWord acc) (']' :: rest) = (tokens .plain rest).map fun ts => .word acc.reverse :: .closeBracket :: ts :=
  rfl

@[simp] theorem tokens_plain_nil : tokens .plain [] = some [] := rfl

@[simp] theorem tokens_plain_space (rest : List Char) : tokens .plain (' ' :: rest) = tokens .plain rest := by
  change (tokens .plain rest).map ([] ++ ·) = _
  simp

@[simp] theorem tokens_plain_comma (rest : List Char) :
    tokens .plain (',' :: rest) = (tokens .plain rest).map (.comma :: ·) := rfl

@[simp] theorem tokens_plain_openBracket (rest : List Char) :
    tokens .plain ('[' :: rest) = (tokens .plain rest).map (.openBracket :: ·) := rfl

@[simp] theorem tokens_plain_closeBracket (rest : List Char) :
    tokens .plain (']' :: rest) = (tokens .plain rest).map (.closeBracket :: ·) := rfl

/-- A literal runs to the closing quotation mark. -/
theorem tokens_quoted {q : List Char} (h : '"' ∉ q) (acc rest : List Char) :
    tokens (.inQuote acc) (q ++ '"' :: rest) =
      (tokens .plain rest).map (.quoted ((q.reverse ++ acc).reverse) :: ·) := by
  induction q generalizing acc with
  | nil => rfl
  | cons c q ih =>
    have hc : c ≠ '"' := fun e => h (e ▸ List.mem_cons_self ..)
    rw [List.cons_append, tokens, if_neg hc, ih fun hq => h (List.mem_cons_of_mem _ hq)]
    simp

@[simp] theorem tokens_plain_quote (rest : List Char) : tokens .plain ('"' :: rest) = tokens (.inQuote []) rest := by
  change (tokens (.inQuote []) rest).map ([] ++ ·) = _
  simp

/-! Register names and numbers (R9, R69). -/

@[simp] theorem parseReg_registerName (r : Reg) : parseReg (registerName r) = some r := by revert r; decide

theorem registerName_ne_nil (r : Reg) : registerName r ≠ [] := List.cons_ne_nil _ _

theorem isWordChar_of_alphanumeric {c : Char} (h : 48 ≤ c.toNat ∧ c.toNat ≤ 57 ∨ 65 ≤ c.toNat ∧ c.toNat ≤ 90 ∨
    97 ≤ c.toNat ∧ c.toNat ≤ 122) : IsWordChar c := by
  refine ⟨?_, ?_, ?_, ?_, ?_, ?_, ?_⟩ <;> (rintro rfl; revert h; decide)

theorem isWordChar_registerName (r : Reg) : ∀ c ∈ registerName r, IsWordChar c := by
  have h : ∀ r : Reg, (registerName r).all fun c =>
      decide (48 ≤ c.toNat) && decide (c.toNat ≤ 57) || decide (97 ≤ c.toNat) && decide (c.toNat ≤ 122) := by decide
  intro c hc
  have := List.all_eq_true.1 (h r) c hc
  simp only [Bool.or_eq_true, Bool.and_eq_true, decide_eq_true_eq] at this
  exact isWordChar_of_alphanumeric (by omega)

theorem isWordChar_of_parseDigits {base : Nat} (hb : base ≤ 10) {cs : List Char} {v n : Nat}
    (h : parseDigits base cs v = some n) : ∀ c ∈ cs, IsWordChar c := by
  induction cs generalizing v with
  | nil => simp
  | cons c cs ih =>
    rw [parseDigits] at h
    split at h
    · rename_i hc
      rintro d (_ | ⟨_, hd⟩)
      · exact isWordChar_of_alphanumeric (.inl ⟨hc.1, by omega⟩)
      · exact ih h d hd
    · cases h

theorem isWordChar_of_hexDigitsValue {cs : List Char} {v n : Nat} (h : hexDigitsValue cs v = .ok n) :
    ∀ c ∈ cs, IsWordChar c := by
  induction cs generalizing v with
  | nil => simp
  | cons c cs ih =>
    rw [hexDigitsValue] at h
    split at h
    · rename_i x hc
      rintro d (_ | ⟨_, hd⟩)
      · apply isWordChar_of_alphanumeric
        unfold hexDigitValue at hc
        split_ifs at hc <;> omega
      · exact ih h d hd
    · cases h

/-- What is read as a number is one word. -/
theorem isWordChar_of_parseNumber {cs : List Char} {n : Nat} (h : parseNumber cs = some n) :
    cs ≠ [] ∧ ∀ c ∈ cs, IsWordChar c := by
  unfold parseNumber at h
  split at h
  · cases h
  · refine ⟨List.cons_ne_nil _ _, ?_⟩
    have := isWordChar_of_parseDigits (by decide) h
    rintro c (_ | ⟨_, _ | ⟨_, hc⟩⟩)
    · exact isWordChar_of_alphanumeric (by decide)
    · exact isWordChar_of_alphanumeric (by decide)
    · exact this c hc
  · refine ⟨List.cons_ne_nil _ _, ?_⟩
    rename_i tail
    cases htail : fromHex ('0' :: 'x' :: tail) with
    | error e => rw [htail] at h; cases h
    | ok m =>
      cases tail with
      | nil => cases htail
      | cons d ds =>
        have := isWordChar_of_hexDigitsValue (v := 0) (show hexDigitsValue (d :: ds) 0 = .ok m from htail)
        rintro c (_ | ⟨_, _ | ⟨_, hc⟩⟩)
        · exact isWordChar_of_alphanumeric (by decide)
        · exact isWordChar_of_alphanumeric (by decide)
        · exact this c hc
  · exact ⟨by assumption, isWordChar_of_parseDigits (by decide) h⟩

end Sys2Proof.Machine
end

