-- ==== Sys2Proof/Laws/Poly.lean ====
section
/-! SUPPORT. What the arithmetic functions do, said once: bit length, one reduction pass, the reduction loop and the
multiplier's loop. The loops' fuel never runs out (R84, R117). -/

namespace Sys2Proof.Machine

/-! Bit length (R10). -/

@[simp] theorem bl_zero : bl 0 = 0 := rfl

theorem bl_le_iff (n k : Nat) : bl n ≤ k ↔ n < 2 ^ k := by
  unfold bl
  split
  · simp_all
  · rename_i h
    rw [Nat.add_one_le_iff, Nat.log2_lt h]

theorem lt_bl_iff (n k : Nat) : k < bl n ↔ 2 ^ k ≤ n := by
  rw [← not_iff_not, not_lt, not_le]
  exact bl_le_iff n k

theorem lt_two_pow_bl (n : Nat) : n < 2 ^ bl n := (bl_le_iff n _).1 le_rfl

theorem bl_mono {m n : Nat} (h : m ≤ n) : bl m ≤ bl n := (bl_le_iff m _).2 (h.trans_lt (lt_two_pow_bl n))

theorem bl_eq_zero_iff (n : Nat) : bl n = 0 ↔ n = 0 := by
  rw [← Nat.le_zero, bl_le_iff]
  simp

theorem bl_pos {n : Nat} (h : n ≠ 0) : 0 < bl n := Nat.pos_of_ne_zero (mt (bl_eq_zero_iff n).1 h)

theorem testBit_of_bl_le {n i : Nat} (h : bl n ≤ i) : n.testBit i = false :=
  Nat.testBit_lt_two_pow ((bl_le_iff n i).1 h)

/-- The leading bit of a non-zero number is set. -/
theorem testBit_leading {n : Nat} (h : n ≠ 0) : n.testBit (bl n - 1) = true := by
  have hlow : 2 ^ (bl n - 1) ≤ n := (lt_bl_iff n _).1 (by have := bl_pos h; omega)
  have hhigh : n < 2 ^ (bl n - 1 + 1) := by
    have := lt_two_pow_bl n
    rwa [Nat.sub_add_cancel (bl_pos h)]
  rw [Nat.testBit_eq_decide_div_mod_eq, decide_eq_true_eq]
  have hdiv : n / 2 ^ (bl n - 1) = 1 :=
    Nat.div_eq_of_lt_le (by simpa using hlow) (by rw [pow_succ] at hhigh; omega)
  rw [hdiv]

/-- A number whose bits from `k` up are all clear has bit length at most `k`. -/
theorem bl_le_of_testBit {n k : Nat} (h : ∀ i, k ≤ i → n.testBit i = false) : bl n ≤ k :=
  (bl_le_iff n k).2 (Nat.lt_pow_two_of_testBit n h)

theorem bl_xor_le (x y : Nat) : bl (x ^^^ y) ≤ max (bl x) (bl y) :=
  bl_le_of_testBit fun i hi => by
    rw [Nat.testBit_xor, testBit_of_bl_le (le_trans (le_max_left _ _) hi),
      testBit_of_bl_le (le_trans (le_max_right _ _) hi)]
    rfl

theorem bl_shiftLeft {n : Nat} (h : n ≠ 0) (s : Nat) : bl (n <<< s) = bl n + s := by
  have hpow : 0 < 2 ^ s := Nat.two_pow_pos s
  rw [Nat.shiftLeft_eq]
  apply le_antisymm
  · rw [bl_le_iff, pow_add]
    exact Nat.mul_lt_mul_of_pos_right (lt_two_pow_bl n) hpow
  · have hb := bl_pos h
    have hlow : 2 ^ (bl n - 1) ≤ n := (lt_bl_iff n _).1 (by omega)
    have : bl n - 1 + s < bl (n * 2 ^ s) := by
      rw [lt_bl_iff, pow_add]
      exact Nat.mul_le_mul_right _ hlow
    omega

theorem bl_two_pow (k : Nat) : bl (2 ^ k) = k + 1 := by
  have h := bl_shiftLeft (n := 1) (by decide) k
  rw [Nat.shiftLeft_eq, one_mul] at h
  rw [h, show bl 1 = 1 from rfl, add_comm]

/-- Two numbers of one bit length cancel their leading terms. -/
theorem bl_xor_lt {x y : Nat} (hx : x ≠ 0) (h : bl x = bl y) : bl (x ^^^ y) < bl x := by
  have hy : y ≠ 0 := fun h0 => hx ((bl_eq_zero_iff x).1 (by rw [h, h0, bl_zero]))
  have hpos := bl_pos hx
  suffices bl (x ^^^ y) ≤ bl x - 1 by omega
  apply bl_le_of_testBit
  intro i hi
  rw [Nat.testBit_xor]
  rcases Nat.eq_or_lt_of_le hi with rfl | hlt
  · have hy' := testBit_leading hy
    rw [← h] at hy'
    rw [testBit_leading hx, hy']
    rfl
  · rw [testBit_of_bl_le (by omega), testBit_of_bl_le (by omega)]
    rfl

/-! Reduction (R82 to R85). -/

/-- One pass strictly shortens the value (R83). -/
theorem bl_reducePass_lt {v p : Nat} (hp : p ≠ 0) (h : bl p ≤ bl v) : bl (reducePass v p) < bl v := by
  have hv : v ≠ 0 := by
    rintro rfl
    exact hp ((bl_eq_zero_iff p).1 (by simpa using h))
  exact bl_xor_lt hv (by rw [bl_shiftLeft hp]; omega)

/-- Any fuel that reaches the value's bit length gives the same result. -/
theorem reduceLoop_eq_reduce {p : Nat} (hp : p ≠ 0) :
    ∀ (fuel v : Nat), bl v ≤ fuel → reduceLoop fuel v p = reduce v p := by
  have key : ∀ (n v f g : Nat), bl v ≤ n → bl v ≤ f → bl v ≤ g → reduceLoop f v p = reduceLoop g v p := by
    intro n
    induction n with
    | zero =>
      intro v f g hn _ _
      have h0 : bl v < bl p := lt_of_le_of_lt hn (bl_pos hp)
      cases f <;> cases g <;> simp [reduceLoop, not_le.2 h0]
    | succ n ih =>
      intro v f g hn hf hg
      by_cases h : bl p ≤ bl v
      · have hpos : 0 < bl v := lt_of_lt_of_le (bl_pos hp) h
        obtain ⟨f, rfl⟩ := Nat.exists_eq_add_of_lt (lt_of_lt_of_le hpos hf)
        obtain ⟨g, rfl⟩ := Nat.exists_eq_add_of_lt (lt_of_lt_of_le hpos hg)
        have hlt := bl_reducePass_lt hp h
        simp only [zero_add] at hf hg ⊢
        simp only [reduceLoop, if_pos h]
        exact ih _ _ _ (by omega) (by omega) (by omega)
      · cases f <;> cases g <;> simp [reduceLoop, h]
  exact fun fuel v h => key (bl v) v fuel (bl v) le_rfl h le_rfl

/-- The loop of R82, unrolled once. -/
theorem reduce_eq {p : Nat} (hp : p ≠ 0) (v : Nat) :
    reduce v p = if bl p ≤ bl v then reduce (reducePass v p) p else v := by
  by_cases h : bl p ≤ bl v
  · have hpos : 0 < bl v := lt_of_lt_of_le (bl_pos hp) h
    have hlt := bl_reducePass_lt hp h
    rw [if_pos h, ← reduceLoop_eq_reduce hp (bl v - 1) (reducePass v p) (by omega),
      ← reduceLoop_eq_reduce hp (bl v - 1 + 1) v (by omega)]
    simp [reduceLoop, h]
  · rw [if_neg h, ← reduceLoop_eq_reduce hp (bl v + 1) v (by omega)]
    simp [reduceLoop, h]

/-- An already reduced value passes through unchanged. -/
theorem reduce_of_lt {v p : Nat} (h : bl v < bl p) : reduce v p = v :=
  have hp : p ≠ 0 := by rintro rfl; simp at h
  by rw [reduce_eq hp, if_neg (not_le.2 h)]

/-- Induction over the passes of `reduce`: a property of pairs of value and result that holds of reduced values and is
carried back over one pass holds of every value. -/
theorem reduce_induction {p : Nat} (hp : p ≠ 0) {P : Nat → Prop} (done : ∀ v, bl v < bl p → P v)
    (pass : ∀ v, bl p ≤ bl v → P (reducePass v p) → P v) (v : Nat) : P v := by
  induction hn : bl v using Nat.strong_induction_on generalizing v with
  | _ n ih =>
    subst hn
    by_cases h : bl p ≤ bl v
    · exact pass v h (ih _ (bl_reducePass_lt hp h) _ rfl)
    · exact done v (not_le.1 h)

/-- The result is reduced: the exit condition of the loop (R85 (a)). -/
theorem bl_reduce_lt {p : Nat} (hp : p ≠ 0) (v : Nat) : bl (reduce v p) < bl p := by
  induction v using reduce_induction hp with
  | done v h => rwa [reduce_of_lt h]
  | pass v h ih => rwa [reduce_eq hp, if_pos h]

/-- The passes of `reduce`, unrolled once. -/
theorem reduceSteps_eq {p : Nat} (hp : p ≠ 0) (v : Nat) :
    reduceSteps v p =
      if bl p ≤ bl v then (bl v - bl p, reducePass v p) :: reduceSteps (reducePass v p) p else [] := by
  have key : ∀ (n v f g : Nat), bl v ≤ n → bl v ≤ f → bl v ≤ g → reduceStepsLoop f v p = reduceStepsLoop g v p := by
    intro n
    induction n with
    | zero =>
      intro v f g hn _ _
      have h0 : bl v < bl p := lt_of_le_of_lt hn (bl_pos hp)
      cases f <;> cases g <;> simp [reduceStepsLoop, not_le.2 h0]
    | succ n ih =>
      intro v f g hn hf hg
      by_cases h : bl p ≤ bl v
      · have hpos : 0 < bl v := lt_of_lt_of_le (bl_pos hp) h
        obtain ⟨f, rfl⟩ := Nat.exists_eq_add_of_lt (lt_of_lt_of_le hpos hf)
        obtain ⟨g, rfl⟩ := Nat.exists_eq_add_of_lt (lt_of_lt_of_le hpos hg)
        have hlt := bl_reducePass_lt hp h
        simp only [zero_add] at hf hg ⊢
        simp only [reduceStepsLoop, if_pos h]
        rw [ih _ f g (by omega) (by omega) (by omega)]
      · cases f <;> cases g <;> simp [reduceStepsLoop, h]
  unfold reduceSteps
  rw [key (bl v) v (bl v) (bl v + 1) le_rfl le_rfl (by omega)]
  simp only [reduceStepsLoop]
  split
  · have := bl_reducePass_lt hp ‹_›
    rw [key (bl v) (reducePass v p) (bl v) (bl (reducePass v p)) (by omega) (by omega) le_rfl]
  · rfl

/-! The multiplier (R115 to R119). -/

/-- The loop of R115, unrolled once. -/
theorem mulLoop_eq_mulAfter (x y p : Nat) : mulLoop p (bl y) ⟨x, y, 0⟩ = mulAfter x y p (bl y) := by
  have hb : ∀ k, (mulAfter x y p k).b = y >>> k := by
    intro k
    induction k with
    | zero => rfl
    | succ k ih => rw [mulAfter, mulPass, ih, ← Nat.shiftRight_add]
  have key : ∀ (fuel k : Nat), k + fuel = bl y → mulLoop p fuel (mulAfter x y p k) = mulAfter x y p (bl y) := by
    intro fuel
    induction fuel with
    | zero => intro k hk; rw [← hk]; rfl
    | succ fuel ih =>
      intro k hk
      have hne : (mulAfter x y p k).b ≠ 0 := by
        rw [hb, Nat.shiftRight_eq_div_pow]
        have : 2 ^ k ≤ y := (lt_bl_iff y k).1 (by omega)
        exact Nat.ne_of_gt (Nat.div_pos this (Nat.two_pow_pos k))
      rw [mulLoop, if_neg hne]
      exact ih (k + 1) (by omega)
  exact key (bl y) 0 (by omega)

/-- A product is reduced (R116, R119). -/
theorem bl_gfmul_lt {p : Nat} (hp : p ≠ 0) (x y : Nat) : bl (gfmul x y p) < bl p := bl_reduce_lt hp _

end Sys2Proof.Machine
end

