-- ==== Sys2Proof/Laws/Clmul.lean ====
section
/-! SUPPORT. The ring laws of the carry-less product: it distributes over XOR on both sides, powers of two are shifts,
and it commutes and associates (42_multiply.md R120, R121). -/

namespace Sys2Proof.Machine

/-- The carry-less product over the bits of `y` below `n`. -/
def clmulTo (x y n : Nat) : Nat :=
  (List.range n).foldl (fun acc i => if y.testBit i then acc ^^^ (x <<< i) else acc) 0

@[simp] theorem clmulTo_zero (x y : Nat) : clmulTo x y 0 = 0 := rfl

theorem clmulTo_succ (x y n : Nat) :
    clmulTo x y (n + 1) = if y.testBit n then clmulTo x y n ^^^ (x <<< n) else clmulTo x y n := by
  simp [clmulTo, List.range_succ, List.foldl_append]

theorem clmul_eq_clmulTo (x y : Nat) : clmul x y = clmulTo x y (bl y) := rfl

/-- Bits above the operand's length add nothing. -/
theorem clmulTo_of_bl_le {y n : Nat} (x : Nat) (h : bl y ≤ n) : clmulTo x y n = clmul x y := by
  induction n, h using Nat.le_induction with
  | base => rfl
  | succ n hn ih => rw [clmulTo_succ, testBit_of_bl_le hn]; simpa using ih

theorem clmulTo_xor_left (x x' y n : Nat) : clmulTo (x ^^^ x') y n = clmulTo x y n ^^^ clmulTo x' y n := by
  induction n with
  | zero => simp
  | succ n ih =>
    simp only [clmulTo_succ, ih]
    cases y.testBit n <;> simp [Nat.shiftLeft_xor_distrib]
    ac_rfl

theorem clmulTo_xor_right (x y z n : Nat) : clmulTo x (y ^^^ z) n = clmulTo x y n ^^^ clmulTo x z n := by
  induction n with
  | zero => simp
  | succ n ih =>
    simp only [clmulTo_succ, Nat.testBit_xor, ih]
    cases y.testBit n <;> cases z.testBit n <;> simp
    · ac_rfl
    · ac_rfl
    · apply Nat.eq_of_testBit_eq
      intro i
      simp only [Nat.testBit_xor]
      cases (clmulTo x y n).testBit i <;> cases (clmulTo x z n).testBit i <;> cases (x <<< n).testBit i <;> rfl

theorem clmul_xor_left (x y z : Nat) : clmul (x ^^^ y) z = clmul x z ^^^ clmul y z := clmulTo_xor_left x y z _

theorem clmul_xor_right (x y z : Nat) : clmul x (y ^^^ z) = clmul x y ^^^ clmul x z := by
  have h := clmulTo_xor_right x y z (max (bl y) (bl z))
  rwa [clmulTo_of_bl_le _ (bl_xor_le y z), clmulTo_of_bl_le _ (le_max_left ..),
    clmulTo_of_bl_le _ (le_max_right ..)] at h

@[simp] theorem clmul_zero (x : Nat) : clmul x 0 = 0 := rfl

@[simp] theorem zero_clmul (x : Nat) : clmul 0 x = 0 := by
  rw [clmul_eq_clmulTo]
  generalize bl x = n
  induction n with
  | zero => rfl
  | succ n ih => rw [clmulTo_succ, ih]; simp

/-- A product with a power of two on the right is a shift. -/
theorem clmul_two_pow (x k : Nat) : clmul x (2 ^ k) = x <<< k := by
  have below : ∀ n ≤ k, clmulTo x (2 ^ k) n = 0 := by
    intro n hn
    induction n with
    | zero => rfl
    | succ n ih =>
      rw [clmulTo_succ, ih (by omega)]
      simp [Nat.testBit_two_pow]
      omega
  rw [clmul_eq_clmulTo, bl_two_pow, clmulTo_succ]
  simp [below k le_rfl]

/-- The low `n + 1` bits of a number are its low `n` bits and bit `n`. -/
theorem mod_two_pow_succ_eq_xor (x n : Nat) :
    x % 2 ^ (n + 1) = (x % 2 ^ n) ^^^ (if x.testBit n then 2 ^ n else 0) := by
  apply Nat.eq_of_testBit_eq
  intro i
  simp only [Nat.testBit_mod_two_pow, Nat.testBit_xor]
  rcases lt_trichotomy i n with h | rfl | h
  · cases x.testBit n <;> simp [h, Nat.ne_of_gt h, Nat.lt_succ_of_lt h]
  · cases hx : x.testBit i <;> simp
  · cases x.testBit n <;> simp [Nat.ne_of_lt h, Nat.not_lt.2 h.le, Nat.not_lt.2 (Nat.succ_le_of_lt h)]

/-- A product with a power of two on the left is a shift. -/
theorem two_pow_clmul (x k : Nat) : clmul (2 ^ k) x = x <<< k := by
  have upTo : ∀ n, clmulTo (2 ^ k) x n = (x % 2 ^ n) <<< k := by
    intro n
    induction n with
    | zero => simp [Nat.mod_one]
    | succ n ih =>
      rw [clmulTo_succ, ih, mod_two_pow_succ_eq_xor]
      split
      · rw [Nat.shiftLeft_xor_distrib]
        congr 1
        rw [Nat.shiftLeft_eq, Nat.shiftLeft_eq, mul_comm]
      · simp
  rw [clmul_eq_clmulTo, upTo, Nat.mod_eq_of_lt (lt_two_pow_bl x)]

/-- A non-zero number is its leading bit and a shorter rest. -/
theorem leading_bit_split {n : Nat} (h : n ≠ 0) :
    bl (n ^^^ 2 ^ (bl n - 1)) < bl n ∧ n = 2 ^ (bl n - 1) ^^^ (n ^^^ 2 ^ (bl n - 1)) := by
  constructor
  · apply bl_xor_lt h
    rw [bl_two_pow, Nat.sub_add_cancel (bl_pos h)]
  · rw [Nat.xor_comm n, ← Nat.xor_assoc]
    simp

/-- Induction over the terms of a polynomial. -/
theorem term_induction {P : Nat → Prop} (zero : P 0) (term : ∀ k n, P n → P (2 ^ k ^^^ n)) (n : Nat) : P n := by
  induction hb : bl n using Nat.strong_induction_on generalizing n with
  | _ m ih =>
    subst hb
    by_cases h : n = 0
    · exact h ▸ zero
    · obtain ⟨hlt, heq⟩ := leading_bit_split h
      rw [heq]
      exact term _ _ (ih _ hlt _ rfl)

theorem clmul_comm (x y : Nat) : clmul x y = clmul y x := by
  induction x using term_induction with
  | zero => simp
  | term k n ih => rw [clmul_xor_left, clmul_xor_right, two_pow_clmul, clmul_two_pow, ih]

theorem clmul_shiftLeft (x y k : Nat) : clmul (x <<< k) y = clmul x y <<< k := by
  induction y using term_induction with
  | zero => simp
  | term j n ih =>
    rw [clmul_xor_right, clmul_xor_right, Nat.shiftLeft_xor_distrib, ih, clmul_two_pow, clmul_two_pow,
      ← Nat.shiftLeft_add, ← Nat.shiftLeft_add, add_comm]

theorem clmul_assoc (x y z : Nat) : clmul (clmul x y) z = clmul x (clmul y z) := by
  induction x using term_induction with
  | zero => simp
  | term k n ih =>
    rw [clmul_xor_left, clmul_xor_left, clmul_xor_left, ih, two_pow_clmul, two_pow_clmul, clmul_shiftLeft]

end Sys2Proof.Machine
end

