-- ==== Sys2Proof/Laws/Decode.lean ====
section
/-! SUPPORT. A command word is its four fields: reading them from a word made of fields gives them back, every word is
made of its fields, and they are the bits R60 names (30_encoding.md R60). -/

namespace Sys2Proof.Machine

theorem toNat_fieldWord (op : Fin 16) (rd ra rb : Reg) :
    (fieldWord op rd ra rb).toNat = 4096 * op.val + 256 * rd.val + 16 * ra.val + rb.val := by
  obtain ⟨_, _⟩ := op
  obtain ⟨_, _⟩ := rd
  obtain ⟨_, _⟩ := ra
  obtain ⟨_, _⟩ := rb
  simp only [fieldWord, BitVec.toNat_ofNat]
  omega

@[simp] theorem fieldWord_op (op : Fin 16) (rd ra rb : Reg) : (fieldWord op rd ra rb).op = op := by
  simp only [CommandWord.op, toNat_fieldWord, Fin.ext_iff]
  omega

@[simp] theorem fieldWord_rd (op : Fin 16) (rd ra rb : Reg) : (fieldWord op rd ra rb).rd = rd := by
  simp only [CommandWord.rd, toNat_fieldWord, Fin.ext_iff]
  omega

@[simp] theorem fieldWord_ra (op : Fin 16) (rd ra rb : Reg) : (fieldWord op rd ra rb).ra = ra := by
  simp only [CommandWord.ra, toNat_fieldWord, Fin.ext_iff]
  omega

@[simp] theorem fieldWord_rb (op : Fin 16) (rd ra rb : Reg) : (fieldWord op rd ra rb).rb = rb := by
  simp only [CommandWord.rb, toNat_fieldWord, Fin.ext_iff]
  omega

/-- Every word is the word of its fields. -/
theorem fieldWord_fields (w : CommandWord) : fieldWord w.op w.rd w.ra w.rb = w := by
  apply BitVec.eq_of_toNat_eq
  have := w.isLt
  simp only [toNat_fieldWord, CommandWord.op, CommandWord.rd, CommandWord.ra, CommandWord.rb]
  omega

/-! `OP = CW[15:12]`, `RD = CW[11:8]`, `RA = CW[7:4]`, `RB = CW[3:0]`. -/

theorem op_eq_bits (w : CommandWord) : w.op.val = (w.extractLsb' 12 4).toNat := by
  simp [CommandWord.op, Nat.shiftRight_eq_div_pow]

theorem rd_eq_bits (w : CommandWord) : w.rd.val = (w.extractLsb' 8 4).toNat := by
  simp [CommandWord.rd, Nat.shiftRight_eq_div_pow]

theorem ra_eq_bits (w : CommandWord) : w.ra.val = (w.extractLsb' 4 4).toNat := by
  simp [CommandWord.ra, Nat.shiftRight_eq_div_pow]

theorem rb_eq_bits (w : CommandWord) : w.rb.val = (w.extractLsb' 0 4).toNat := by
  simp [CommandWord.rb]

end Sys2Proof.Machine
end

