-- ==== Sys2Proof/Laws/State.lean ====
section
/-! SUPPORT. One lemma for each field under each update of the state, so that no proof unfolds a record update. -/

namespace Sys2Proof.Machine

/-! The register file (R11, R185). -/

@[simp] theorem Engine.read_write_self {W : Nat} (E : Engine W) (i : Reg) (e : Element W) :
    (E.write i e).read i = some e := by
  simp [Engine.read, Engine.write]

@[simp] theorem Engine.read_write_of_ne {W : Nat} (E : Engine W) {i j : Reg} (e : Element W) (h : i ≠ j) :
    (E.write i e).read j = E.read j := by
  simp [Engine.read, Engine.write, Fin.val_ne_of_ne h]

theorem Engine.read_write {W : Nat} (E : Engine W) (i j : Reg) (e : Element W) :
    (E.write i e).read j = if i = j then some e else E.read j := by
  split
  · subst i; simp
  · simp [*]

@[simp] theorem Engine.read_empty (W : Nat) (i : Reg) : (Engine.empty W).read i = none := by
  simp [Engine.read, Engine.empty]

/-- Two engines agree when their registers do. -/
theorem Engine.ext_read {W : Nat} {E F : Engine W} (h : ∀ i, E.read i = F.read i) : E = F := by
  obtain ⟨E⟩ := E
  obtain ⟨F⟩ := F
  exact congrArg Engine.mk (Vector.ext fun i hi => h ⟨i, hi⟩)

/-! A command's result (R44). -/

@[simp] theorem State.perform_cfg (s : State) (r : Result s.cfg.W) : (s.perform r).cfg = s.cfg := rfl
@[simp] theorem State.perform_engine (s : State) (r : Result s.cfg.W) : (s.perform r).engine = r.1 := rfl
@[simp] theorem State.perform_rsp (s : State) (r : Result s.cfg.W) : (s.perform r).rsp = some r.2 := rfl
@[simp] theorem State.perform_rspReady (s : State) (r : Result s.cfg.W) : (s.perform r).rspReady = s.rspReady := rfl
@[simp] theorem State.perform_script (s : State) (r : Result s.cfg.W) : (s.perform r).script = s.script := rfl
@[simp] theorem State.perform_record (s : State) (r : Result s.cfg.W) : (s.perform r).record = s.record := rfl
@[simp] theorem State.readReg_perform (s : State) (r : Result s.cfg.W) (i : Reg) :
    (s.perform r).readReg i = r.1.read i := rfl

/-! Script and `RSP_READY`. -/

@[simp] theorem State.withScript_cfg (s : State) (l : List (HostEvent s.cfg.W)) : (s.withScript l).cfg = s.cfg := rfl
@[simp] theorem State.withScript_engine (s : State) (l : List (HostEvent s.cfg.W)) : (s.withScript l).engine = s.engine := rfl
@[simp] theorem State.withScript_rsp (s : State) (l : List (HostEvent s.cfg.W)) : (s.withScript l).rsp = s.rsp := rfl
@[simp] theorem State.withScript_rspReady (s : State) (l : List (HostEvent s.cfg.W)) : (s.withScript l).rspReady = s.rspReady := rfl
@[simp] theorem State.withScript_script (s : State) (l : List (HostEvent s.cfg.W)) : (s.withScript l).script = l := rfl
@[simp] theorem State.withScript_record (s : State) (l : List (HostEvent s.cfg.W)) : (s.withScript l).record = s.record := rfl
@[simp] theorem State.readReg_withScript (s : State) (l : List (HostEvent s.cfg.W)) (i : Reg) :
    (s.withScript l).readReg i = s.readReg i := rfl

@[simp] theorem State.setRspReady_cfg (s : State) (b : Bool) : (s.setRspReady b).cfg = s.cfg := rfl
@[simp] theorem State.setRspReady_engine (s : State) (b : Bool) : (s.setRspReady b).engine = s.engine := rfl
@[simp] theorem State.setRspReady_rsp (s : State) (b : Bool) : (s.setRspReady b).rsp = s.rsp := rfl
@[simp] theorem State.setRspReady_rspReady (s : State) (b : Bool) : (s.setRspReady b).rspReady = b := rfl
@[simp] theorem State.setRspReady_script (s : State) (b : Bool) : (s.setRspReady b).script = s.script := rfl
@[simp] theorem State.setRspReady_record (s : State) (b : Bool) : (s.setRspReady b).record = s.record := rfl
@[simp] theorem State.readReg_setRspReady (s : State) (b : Bool) (i : Reg) :
    (s.setRspReady b).readReg i = s.readReg i := rfl

/-! Reset (R185). -/

@[simp] theorem State.resetEngine_cfg (s : State) : (s.resetEngine).cfg = s.cfg := rfl
@[simp] theorem State.resetEngine_engine (s : State) : (s.resetEngine).engine = Engine.empty s.cfg.W := rfl
@[simp] theorem State.resetEngine_rsp (s : State) : (s.resetEngine).rsp = none := rfl
@[simp] theorem State.resetEngine_rspReady (s : State) : (s.resetEngine).rspReady = s.rspReady := rfl
@[simp] theorem State.resetEngine_script (s : State) : (s.resetEngine).script = s.script := rfl
@[simp] theorem State.resetEngine_record (s : State) : (s.resetEngine).record = s.record := rfl
@[simp] theorem State.readReg_resetEngine (s : State) (i : Reg) : s.resetEngine.readReg i = none :=
  Engine.read_empty s.cfg.W i

@[simp] theorem State.resetOf_cfg (cfg : Config) : (State.resetOf cfg).cfg = cfg := rfl
@[simp] theorem State.resetOf_engine (cfg : Config) : (State.resetOf cfg).engine = Engine.empty cfg.W := rfl
@[simp] theorem State.resetOf_rsp (cfg : Config) : (State.resetOf cfg).rsp = none := rfl
@[simp] theorem State.resetOf_rspReady (cfg : Config) : (State.resetOf cfg).rspReady = true := rfl
@[simp] theorem State.resetOf_script (cfg : Config) : (State.resetOf cfg).script = [] := rfl
@[simp] theorem State.resetOf_record (cfg : Config) : (State.resetOf cfg).record = [] := rfl
@[simp] theorem State.readReg_resetOf (cfg : Config) (i : Reg) : (State.resetOf cfg).readReg i = none :=
  Engine.read_empty cfg.W i

/-! Taking a response (R44). -/

@[simp] theorem State.takeResponse_cfg (s : State) : s.takeResponse.cfg = s.cfg := rfl
@[simp] theorem State.takeResponse_engine (s : State) : s.takeResponse.engine = s.engine := rfl
@[simp] theorem State.takeResponse_rsp (s : State) : s.takeResponse.rsp = none := rfl
@[simp] theorem State.takeResponse_rspReady (s : State) : s.takeResponse.rspReady = s.rspReady := rfl
@[simp] theorem State.takeResponse_script (s : State) : s.takeResponse.script = s.script := rfl
@[simp] theorem State.takeResponse_record (s : State) : s.takeResponse.record = s.record ++ s.rsp.toList := rfl
@[simp] theorem State.readReg_takeResponse (s : State) (i : Reg) : s.takeResponse.readReg i = s.readReg i := rfl

theorem State.takeResponse_of_some {s : State} {r : Response s.cfg.W} (h : s.rsp = some r) :
    s.takeResponse = { s with rsp := none, record := s.record ++ [r] } := by
  rw [State.takeResponse, h]
  rfl

/-! Offering a command (R43). -/

@[simp] theorem State.offer_cfg (s : State) (c : Command s.cfg.W) : (s.offer c).cfg = s.cfg := rfl
@[simp] theorem State.offer_engine (s : State) (c : Command s.cfg.W) : (s.offer c).engine = s.engine := rfl
@[simp] theorem State.offer_rsp (s : State) (c : Command s.cfg.W) : (s.offer c).rsp = none := rfl
@[simp] theorem State.offer_rspReady (s : State) (c : Command s.cfg.W) : (s.offer c).rspReady = s.rspReady := rfl
@[simp] theorem State.offer_script (s : State) (c : Command s.cfg.W) : (s.offer c).script = .issue c :: s.script := rfl
@[simp] theorem State.offer_record (s : State) (c : Command s.cfg.W) : (s.offer c).record = s.record := rfl

end Sys2Proof.Machine
end

