-- ==== Sys2Proof/Laws/Ops.lean ====
section
/-! SUPPORT. One lemma for each shared operation that says everything it can do: placing a number in a field, reading
operands, the six meanings, a command, a host event and a step. Later proofs cite these and unfold none of them. -/

namespace Sys2Proof.Machine

/-! Fields and ports (R10, R41). -/

/-- A number that fits the field is held whole. -/
theorem toNat_zext {W v : Nat} (h : bl v ≤ W) : (zext W v).toNat = v := by
  rw [BitVec.toNat_ofNat, Nat.mod_eq_of_lt ((bl_le_iff v W).1 h)]

theorem zext_toNat {W : Nat} (w : Word W) : zext W w.toNat = w := by
  simp [zext]

/-- A field holds a number of at most `W` bits. -/
theorem bl_toNat_le {W : Nat} (w : Word W) : bl w.toNat ≤ W := (bl_le_iff _ _).2 w.isLt

theorem toNat_eq_zero_iff {W : Nat} (w : Word W) : w.toNat = 0 ↔ w = 0 := by
  rw [← BitVec.toNat_inj]
  simp

theorem fits_iff (cfg : Config) (n : Nat) : cfg.Fits n ↔ bl n ≤ cfg.W := (bl_le_iff n cfg.W).symm

theorem portCarries_iff (W n : Nat) : portCarries W n = true ↔ n < 2 ^ W := by
  rw [portCarries, decide_eq_true_eq, bl_le_iff]

@[simp] theorem portCarries_toNat {W : Nat} (w : Word W) : portCarries W w.toNat = true :=
  (portCarries_iff W _).2 w.isLt

/-- The remainder fits the field of its modulus (R42). -/
theorem toNat_zext_reduce {W : Nat} {p : Word W} (hp : p.toNat ≠ 0) (v : Nat) :
    (zext W (reduce v p.toNat)).toNat = reduce v p.toNat :=
  toNat_zext ((bl_reduce_lt hp v).le.trans (bl_toNat_le p))

/-- A product fits the field of its modulus (R42). -/
theorem toNat_zext_gfmul {W : Nat} {p : Word W} (hp : p.toNat ≠ 0) (x y : Nat) :
    (zext W (gfmul x y p.toNat)).toNat = gfmul x y p.toNat :=
  toNat_zext ((bl_gfmul_lt hp x y).le.trans (bl_toNat_le p))

/-- The sum of two fields is their bitwise XOR (R102). -/
theorem zext_xor {W : Nat} (x y : Word W) : zext W (x.toNat ^^^ y.toNat) = x ^^^ y := by
  rw [← BitVec.toNat_xor, zext_toNat]

/-! Operands (R100, R106, R164). -/

theorem source_of_valid {W : Nat} {E : Engine W} {ra : Reg} {x : Element W} (h : E.read ra = some x) :
    source E ra = .ok x := by
  simp [source, h]

theorem source_of_empty {W : Nat} {E : Engine W} {ra : Reg} (h : E.read ra = none) :
    source E ra = .error .emptyRegister := by
  simp [source, h]

theorem sourcePair_of_valid {W : Nat} {E : Engine W} {ra rb : Reg} {x y : Element W} (ha : E.read ra = some x)
    (hb : E.read rb = some y) : sourcePair E ra rb = .ok (x, y) := by
  simp [sourcePair, ha, hb]

theorem sourcePair_of_empty {W : Nat} {E : Engine W} {ra rb : Reg} (h : E.read ra = none ∨ E.read rb = none) :
    sourcePair E ra rb = .error .emptyRegister := by
  rcases h with h | h <;> cases ha : E.read ra <;> simp_all [sourcePair]

theorem compatiblePair_of_compat {W : Nat} {E : Engine W} {ra rb : Reg} {x y : Element W} (ha : E.read ra = some x)
    (hb : E.read rb = some y) (h : x.modulus = y.modulus) : compatiblePair E ra rb = .ok (x, y) := by
  simp [compatiblePair, sourcePair_of_valid ha hb, compat, h]

theorem compatiblePair_of_mismatch {W : Nat} {E : Engine W} {ra rb : Reg} {x y : Element W} (ha : E.read ra = some x)
    (hb : E.read rb = some y) (h : x.modulus ≠ y.modulus) : compatiblePair E ra rb = .error .incompatibleField := by
  simp [compatiblePair, sourcePair_of_valid ha hb, compat, h]

theorem compatiblePair_of_empty {W : Nat} {E : Engine W} {ra rb : Reg} (h : E.read ra = none ∨ E.read rb = none) :
    compatiblePair E ra rb = .error .emptyRegister := by
  simp [compatiblePair, sourcePair_of_empty h]

/-- The two cases of two sources: one is empty, or both are valid. -/
theorem sources_cases {W : Nat} (E : Engine W) (ra rb : Reg) :
    (E.read ra = none ∨ E.read rb = none) ∨ ∃ x y, E.read ra = some x ∧ E.read rb = some y := by
  cases ha : E.read ra with
  | none => exact .inl (.inl rfl)
  | some x =>
    cases hb : E.read rb with
    | none => exact .inl (.inr rfl)
    | some y => exact .inr ⟨x, y, rfl, rfl⟩

theorem combine_of_compat {W : Nat} (f : Nat → Nat → Nat → Nat) (rd : Reg) {E : Engine W} {ra rb : Reg}
    {x y : Element W} (ha : E.read ra = some x) (hb : E.read rb = some y) (h : x.modulus = y.modulus) :
    combine f rd ra rb E = complete rd ⟨x.modulus, zext W (f x.value.toNat y.value.toNat x.modulus.toNat)⟩ E := by
  simp [combine, compatiblePair_of_compat ha hb h]

theorem combine_of_mismatch {W : Nat} (f : Nat → Nat → Nat → Nat) (rd : Reg) {E : Engine W} {ra rb : Reg}
    {x y : Element W} (ha : E.read ra = some x) (hb : E.read rb = some y) (h : x.modulus ≠ y.modulus) :
    combine f rd ra rb E = raise .incompatibleField E := by
  simp [combine, compatiblePair_of_mismatch ha hb h]

theorem combine_of_empty {W : Nat} (f : Nat → Nat → Nat → Nat) (rd : Reg) {E : Engine W} {ra rb : Reg}
    (h : E.read ra = none ∨ E.read rb = none) : combine f rd ra rb E = raise .emptyRegister E := by
  simp [combine, compatiblePair_of_empty h]

/-- Everything a command that combines two sources can do. -/
theorem combine_cases {W : Nat} (f : Nat → Nat → Nat → Nat) (rd ra rb : Reg) (E : Engine W) :
    (combine f rd ra rb E = raise .emptyRegister E ∧ (E.read ra = none ∨ E.read rb = none)) ∨
    (∃ x y, E.read ra = some x ∧ E.read rb = some y ∧ x.modulus ≠ y.modulus ∧
      combine f rd ra rb E = raise .incompatibleField E) ∨
    (∃ x y, E.read ra = some x ∧ E.read rb = some y ∧ x.modulus = y.modulus ∧ combine f rd ra rb E =
      complete rd ⟨x.modulus, zext W (f x.value.toNat y.value.toNat x.modulus.toNat)⟩ E) := by
  rcases sources_cases E ra rb with h | ⟨x, y, ha, hb⟩
  · exact .inl ⟨combine_of_empty f rd h, h⟩
  · by_cases hm : x.modulus = y.modulus
    · exact .inr (.inr ⟨x, y, ha, hb, hm, combine_of_compat f rd ha hb hm⟩)
    · exact .inr (.inl ⟨x, y, ha, hb, hm, combine_of_mismatch f rd ha hb hm⟩)

/-! The commands on an engine. -/

theorem gfnewOn_of_ne {W : Nat} (rd : Reg) (dv : Word W) {dm : Word W} (h : dm.toNat ≠ 0) (E : Engine W) :
    gfnewOn rd dv dm E = complete rd ⟨dm, zext W (reduce dv.toNat dm.toNat)⟩ E := if_neg h

theorem gfnewOn_of_eq {W : Nat} (rd : Reg) (dv : Word W) {dm : Word W} (h : dm.toNat = 0) (E : Engine W) :
    gfnewOn rd dv dm E = raise .invalidModulus E := if_pos h

theorem gfeqOn_of_valid {W : Nat} {E : Engine W} {ra rb : Reg} {x y : Element W} (ha : E.read ra = some x)
    (hb : E.read rb = some y) : gfeqOn ra rb E = (E, .ofEq (eqBit x y)) := by
  simp [gfeqOn, sourcePair_of_valid ha hb]

theorem gfeqOn_of_empty {W : Nat} {E : Engine W} {ra rb : Reg} (h : E.read ra = none ∨ E.read rb = none) :
    gfeqOn ra rb E = raise .emptyRegister E := by
  simp [gfeqOn, sourcePair_of_empty h]

theorem gfrdOn_of_valid {W : Nat} {E : Engine W} {ra : Reg} {x : Element W} (h : E.read ra = some x) :
    gfrdOn ra E = (E, .ofElement x) := by
  simp [gfrdOn, source_of_valid h]

theorem gfrdOn_of_empty {W : Nat} {E : Engine W} {ra : Reg} (h : E.read ra = none) :
    gfrdOn ra E = raise .emptyRegister E := by
  simp [gfrdOn, source_of_empty h]

/-- GFNEW with operands that the ports carry runs on the engine. -/
theorem execGfnew_of_fits (rd : Reg) {dv dm : Nat} {s : State} (hv : dv < 2 ^ s.cfg.W) (hm : dm < 2 ^ s.cfg.W) :
    execGfnew rd dv dm s = .next (s.perform (gfnewOn rd (zext s.cfg.W dv) (zext s.cfg.W dm) s.engine)) := by
  simp [execGfnew, (portCarries_iff _ _).2 hv, (portCarries_iff _ _).2 hm]

/-- GFNEW with the numbers of two words runs on the engine. -/
theorem execGfnew_toNat (rd : Reg) (s : State) (dv dm : Word s.cfg.W) :
    execGfnew rd dv.toNat dm.toNat s = .next (s.perform (gfnewOn rd dv dm s.engine)) := by
  rw [execGfnew_of_fits rd dv.isLt dm.isLt, zext_toNat, zext_toNat]

/-- GFNEW with an operand that a port cannot carry is no command of the machine (R55). -/
theorem execGfnew_of_wide (rd : Reg) {dv dm : Nat} {s : State} (h : ¬ (dv < 2 ^ s.cfg.W ∧ dm < 2 ^ s.cfg.W)) :
    execGfnew rd dv dm s = .refused .operandTooWide := by
  rw [execGfnew, if_neg]
  rwa [Bool.and_eq_true, portCarries_iff, portCarries_iff]

/-- What a command makes of an engine: an error, which only responds; a read, which only responds; a construction; or
the combination of two elements of one field into a new element of that field. -/
inductive ResultOf {W : Nat} (i : Instr) (E : Engine W) : Result W → Prop
  | error (k : ErrorKind) (engineKind : k ≠ .malformedEncoding) (legal : k ≠ .illegalCommand) : ResultOf i E (raise k E)
  | equality (b : Bool) (noDest : i.dest = none) : ResultOf i E (E, .ofEq b)
  | readOut (a : Reg) (x : Element W) (noDest : i.dest = none) (source : E.read a = some x) :
      ResultOf i E (E, .ofElement x)
  | construction (d : Reg) (v p : Word W) (eq : i = .gfnew d v.toNat p.toNat) (modulus : p.toNat ≠ 0) :
      ResultOf i E (complete d ⟨p, zext W (reduce v.toNat p.toNat)⟩ E)
  | combination (d a b : Reg) (x y : Element W) (f : Nat → Nat → Nat → Nat)
      (which : i = .gfadd d a b ∧ f = (fun x y _ => gfadd x y) ∨ i = .gfsub d a b ∧ f = (fun x y _ => gfsub x y) ∨
        i = .gfmul d a b ∧ f = gfmul)
      (left : E.read a = some x) (right : E.read b = some y) (sameField : x.modulus = y.modulus) :
      ResultOf i E (complete d ⟨x.modulus, zext W (f x.value.toNat y.value.toNat x.modulus.toNat)⟩ E)

theorem ResultOf.of_combine {W : Nat} {i : Instr} {d a b : Reg} {f : Nat → Nat → Nat → Nat}
    (which : i = .gfadd d a b ∧ f = (fun x y _ => gfadd x y) ∨ i = .gfsub d a b ∧ f = (fun x y _ => gfsub x y) ∨
      i = .gfmul d a b ∧ f = gfmul) (E : Engine W) : ResultOf i E (combine f d a b E) := by
  rcases combine_cases f d a b E with ⟨h, _⟩ | ⟨x, y, _, _, _, h⟩ | ⟨x, y, ha, hb, hm, h⟩ <;> rw [h]
  · exact .error _ (by decide) (by decide)
  · exact .error _ (by decide) (by decide)
  · exact .combination d a b x y f which ha hb hm

theorem gfnewOn_result {W : Nat} (rd : Reg) (dv dm : Word W) (E : Engine W) :
    ResultOf (.gfnew rd dv.toNat dm.toNat) E (gfnewOn rd dv dm E) := by
  by_cases h : dm.toNat = 0
  · rw [gfnewOn_of_eq rd dv h]
    exact .error _ (by decide) (by decide)
  · rw [gfnewOn_of_ne rd dv h]
    exact .construction rd dv dm rfl h

theorem gfeqOn_result {W : Nat} (ra rb : Reg) (E : Engine W) : ResultOf (.gfeq ra rb) E (gfeqOn ra rb E) := by
  rcases sources_cases E ra rb with h | ⟨x, y, ha, hb⟩
  · rw [gfeqOn_of_empty h]
    exact .error _ (by decide) (by decide)
  · rw [gfeqOn_of_valid ha hb]
    exact .equality _ rfl

theorem gfrdOn_result {W : Nat} (ra : Reg) (E : Engine W) : ResultOf (.gfrd ra) E (gfrdOn ra E) := by
  cases h : E.read ra with
  | none =>
    rw [gfrdOn_of_empty h]
    exact .error _ (by decide) (by decide)
  | some x =>
    rw [gfrdOn_of_valid h]
    exact .readOut ra x rfl h

/-- Everything an instruction can do: refuse operands that the ports cannot carry, or make a `ResultOf` of the engine. -/
theorem exec_cases (i : Instr) (s : State) :
    (i.wellFormed s.cfg = false ∧ exec i s = .refused .operandTooWide) ∨
    ∃ r, ResultOf i s.engine r ∧ exec i s = .next (s.perform r) := by
  cases i with
  | gfnew d dv dm =>
    by_cases h : dv < 2 ^ s.cfg.W ∧ dm < 2 ^ s.cfg.W
    · refine .inr ⟨_, ?_, execGfnew_of_fits d h.1 h.2⟩
      have hr := gfnewOn_result d (zext s.cfg.W dv) (zext s.cfg.W dm) s.engine
      rwa [toNat_zext ((bl_le_iff _ _).2 h.1), toNat_zext ((bl_le_iff _ _).2 h.2)] at hr
    · refine .inl ⟨?_, execGfnew_of_wide d h⟩
      rw [Instr.wellFormed, ← Bool.not_eq_true, Bool.and_eq_true, decide_eq_true_eq, decide_eq_true_eq]
      exact h
  | gfadd d a b => exact .inr ⟨_, .of_combine (.inl ⟨rfl, rfl⟩) s.engine, rfl⟩
  | gfsub d a b => exact .inr ⟨_, .of_combine (.inr (.inl ⟨rfl, rfl⟩)) s.engine, rfl⟩
  | gfmul d a b => exact .inr ⟨_, .of_combine (.inr (.inr ⟨rfl, rfl⟩)) s.engine, rfl⟩
  | gfeq a b => exact .inr ⟨_, gfeqOn_result a b s.engine, rfl⟩
  | gfrd a => exact .inr ⟨_, gfrdOn_result a s.engine, rfl⟩

/-! A command, an event, a step. -/

/-- What a command decodes to fits the ports it came from (R43, R55). -/
theorem wellFormed_of_decode {cfg : Config} {c : Command cfg.W} {i : Instr} (h : decode c = some i) :
    i.wellFormed cfg = true := by
  rw [decode] at h
  split_ifs at h <;> cases h <;> simp [Instr.wellFormed, c.dv.isLt, c.dm.isLt]

theorem runCommand_of_decode {s : State} {c : Command s.cfg.W} {i : Instr} (h : decode c = some i) :
    runCommand s c = exec i s := by
  simp [runCommand, h]

theorem runCommand_of_illegal {s : State} {c : Command s.cfg.W} (h : decode c = none) :
    runCommand s c = .next (s.perform (raise .illegalCommand s.engine)) := by
  simp [runCommand, h]

/-- The data words of a decoded GFNEW are the command's (R62). -/
theorem decode_gfnew {W : Nat} {c : Command W} {rd : Reg} {dv dm : Nat} (h : decode c = some (.gfnew rd dv dm)) :
    dv = c.dv.toNat ∧ dm = c.dm.toNat := by
  rw [decode] at h
  split_ifs at h <;> cases h
  exact ⟨rfl, rfl⟩

/-- Everything a command can make of an engine: `IllegalCommand` where it decodes to nothing, and a `ResultOf` of what it
decodes to. -/
theorem engineStep_cases {W : Nat} (E : Engine W) (c : Command W) :
    (decode c = none ∧ engineStep E c = raise .illegalCommand E) ∨
    ∃ i, decode c = some i ∧ ResultOf i E (engineStep E c) := by
  cases h : decode c with
  | none => exact .inl ⟨rfl, by rw [engineStep, h]⟩
  | some i =>
    refine .inr ⟨i, rfl, ?_⟩
    rw [engineStep, h]
    cases i with
    | gfnew d dv dm =>
      obtain ⟨rfl, rfl⟩ := decode_gfnew h
      exact gfnewOn_result d c.dv c.dm E
    | gfadd d a b => exact .of_combine (.inl ⟨rfl, rfl⟩) E
    | gfsub d a b => exact .of_combine (.inr (.inl ⟨rfl, rfl⟩)) E
    | gfmul d a b => exact .of_combine (.inr (.inr ⟨rfl, rfl⟩)) E
    | gfeq a b => exact gfeqOn_result a b E
    | gfrd a => exact gfrdOn_result a E

/-- A command's meaning on the machine is the engine's step function on its engine (R50). -/
theorem runCommand_eq (s : State) (c : Command s.cfg.W) : runCommand s c = .next (s.perform (engineStep s.engine c)) := by
  cases h : decode c with
  | none => rw [runCommand_of_illegal h, engineStep, h]
  | some i =>
    rw [runCommand_of_decode h, engineStep, h]
    cases i with
    | gfnew d dv dm =>
      obtain ⟨rfl, rfl⟩ := decode_gfnew h
      exact execGfnew_toNat d s c.dv c.dm
    | gfadd d a b => rfl
    | gfsub d a b => rfl
    | gfmul d a b => rfl
    | gfeq a b => rfl
    | gfrd a => rfl

/-- A response presented to a host that holds `RSP_READY` high is taken. -/
theorem step_take {s : State} {r : Response s.cfg.W} (h : s.rsp = some r) (ready : s.rspReady = true) :
    step s = .next s.takeResponse := by
  simp [step, State.rspTaken, State.rspValid, h, ready]

theorem step_of_idle {s : State} (h : s.script = []) (hr : s.rsp = none ∨ s.rspReady = false) : step s = .next s := by
  rcases hr with hr | hr <;> simp [step, State.rspTaken, State.rspValid, h, hr]

/-- A step in which no response is taken is the host's next event. -/
theorem step_event {s : State} {e : HostEvent s.cfg.W} {rest : List (HostEvent s.cfg.W)} (h : s.script = e :: rest)
    (hr : s.rsp = none ∨ s.rspReady = false) : step s = hostEvent s e rest := by
  rcases hr with hr | hr <;> simp [step, State.rspTaken, State.rspValid, h, hr]

theorem step_issue {s : State} {c : Command s.cfg.W} {rest : List (HostEvent s.cfg.W)}
    (h : s.script = .issue c :: rest) (ready : s.rsp = none) : step s = runCommand (s.withScript rest) c := by
  simp [step_event h (.inl ready), hostEvent, State.cmdReady, ready]

theorem step_issue_busy {s : State} {c : Command s.cfg.W} {rest : List (HostEvent s.cfg.W)} {r : Response s.cfg.W}
    (h : s.script = .issue c :: rest) (busy : s.rsp = some r) (hr : s.rspReady = false) : step s = .next s := by
  simp [step_event h (.inr hr), hostEvent, State.cmdReady, busy]

theorem step_of_reset {s : State} {e : HostEvent s.cfg.W} {rest : List (HostEvent s.cfg.W)} (h : s.script = e :: rest)
    (he : e.isReset = true) (hr : s.rsp = none ∨ s.rspReady = false) :
    step s = .next (s.withScript rest).resetEngine := by
  rw [step_event h hr]
  cases e with
  | issue c => cases he
  | driveRspReady b => cases he
  | reset => rfl
  | resetDuring c => rfl

/-- Everything a step can do: nothing, taking a response, driving `RSP_READY`, emptying the engine, or one command run
whole. -/
theorem step_cases (s : State) :
    (step s = .next s) ∨
    (∃ r, s.rsp = some r ∧ s.rspReady = true ∧ step s = .next s.takeResponse) ∨
    (∃ b rest, s.script = .driveRspReady b :: rest ∧ step s = .next ((s.withScript rest).setRspReady b)) ∨
    (∃ e rest, s.script = e :: rest ∧ e.isReset = true ∧ step s = .next (s.withScript rest).resetEngine) ∨
    (∃ c rest, s.script = .issue c :: rest ∧ s.rsp = none ∧ step s = runCommand (s.withScript rest) c) := by
  by_cases ht : s.rspTaken = true
  · simp only [State.rspTaken, State.rspValid, Bool.and_eq_true, Option.isSome_iff_exists] at ht
    obtain ⟨⟨r, hr⟩, hrdy⟩ := ht
    exact .inr (.inl ⟨r, hr, hrdy, step_take hr hrdy⟩)
  · have hr : s.rsp = none ∨ s.rspReady = false := by
      simpa [State.rspTaken, State.rspValid, Decidable.imp_iff_not_or, Option.isSome_iff_ne_none] using ht
    cases h : s.script with
    | nil => exact .inl (step_of_idle h hr)
    | cons e rest =>
      cases e with
      | issue c =>
        cases hs : s.rsp with
        | none => exact .inr (.inr (.inr (.inr ⟨c, rest, rfl, rfl, step_issue h hs⟩)))
        | some r => exact .inl (step_issue_busy h hs (by simpa [hs] using hr))
      | driveRspReady b => exact .inr (.inr (.inl ⟨b, rest, rfl, step_event h hr⟩))
      | reset => exact .inr (.inr (.inr (.inl ⟨_, rest, rfl, rfl, step_of_reset h rfl hr⟩)))
      | resetDuring c => exact .inr (.inr (.inr (.inl ⟨_, rest, rfl, rfl, step_of_reset h rfl hr⟩)))

/-- A run of one more step, where the step goes on. -/
theorem core_run_succ {s t : State} (h : step s = .next t) (n : Nat) :
    Sys2Proof.core.run (n + 1) s = Sys2Proof.core.run n t := by
  have hs : Sys2Proof.core.step s = .next t := h
  simp only [Host.Core.run, hs]

end Sys2Proof.Machine
end

