-- ==== Sys2Proof/Laws/PerInstr.lean ====
section
/-! SUPPORT. Facts about every instruction as syntax, one lemma for each constructor of `Instr`. -/

/-- The family `WordFields`: the four fields of an instruction's word are its operation code, its destination and its
sources, and a field the format does not use is zero (30_encoding.md R60, R61). -/
def Sys2Proof.Laws.WordFields.Statement (i : Sys2Proof.Instr) : Prop :=
  ∀ W : Nat, (Sys2Proof.encode W i).cw =
    Sys2Proof.Machine.fieldWord i.op (i.dest.getD 0) (i.sources[0]?.getD 0) (i.sources[1]?.getD 0)

theorem Sys2Proof.Laws.WordFields.gfnew (rd : Sys2Proof.Reg) (dv dm : Nat) :
    Sys2Proof.Laws.WordFields.Statement (.gfnew rd dv dm) :=
  fun _ => rfl

theorem Sys2Proof.Laws.WordFields.gfadd (rd ra rb : Sys2Proof.Reg) :
    Sys2Proof.Laws.WordFields.Statement (.gfadd rd ra rb) :=
  fun _ => rfl

theorem Sys2Proof.Laws.WordFields.gfsub (rd ra rb : Sys2Proof.Reg) :
    Sys2Proof.Laws.WordFields.Statement (.gfsub rd ra rb) :=
  fun _ => rfl

theorem Sys2Proof.Laws.WordFields.gfmul (rd ra rb : Sys2Proof.Reg) :
    Sys2Proof.Laws.WordFields.Statement (.gfmul rd ra rb) :=
  fun _ => rfl

theorem Sys2Proof.Laws.WordFields.gfeq (ra rb : Sys2Proof.Reg) :
    Sys2Proof.Laws.WordFields.Statement (.gfeq ra rb) :=
  fun _ => rfl

theorem Sys2Proof.Laws.WordFields.gfrd (ra : Sys2Proof.Reg) :
    Sys2Proof.Laws.WordFields.Statement (.gfrd ra) :=
  fun _ => rfl
end

