-- ==== Sys2Proof/Tests/Slice0.lean ====
section
/-! SUPPORT. Small tests, their expected values taken from the tables of 95_test_vectors.md (V, A, M, T, Q, E, X, H) and
from the spec's worded examples, and for every statement with hypotheses a state and operands that meet them. -/

namespace Sys2Proof.Tests

open Sys2Proof Sys2Proof.Machine

/-! Helpers. -/

/-- An engine of width 9, the least that holds the AES-style field (R8). -/
def w9 : Config := ⟨9, by decide⟩

/-- An engine of width 1, the least there is (R8). -/
def w1 : Config := ⟨1, by decide⟩

/-- An engine of width 9 right after reset, with some registers written. -/
def holding (l : List (Reg × Element 9)) : State :=
  { State.resetOf w9 with engine := l.foldl (fun E p => E.write p.1 p.2) (Engine.empty 9) }

/-- A state whose host does these events next. -/
def thenHost (s : State) (l : List (HostEvent s.cfg.W)) : State := { s with script := l }

/-- The response of an outcome: status, `EQ`, and the numbers on `RV` and `RM`. -/
def response : Outcome → Option (Status × Bool × Nat × Nat)
  | .next t => t.rsp.map (fun r => (r.st, r.eq, r.rv.toNat, r.rm.toNat))
  | .fault _ => none
  | .refused _ => none

/-- The modulus and the value in a register of an outcome. -/
def register (i : Reg) : Outcome → Option (Nat × Nat)
  | .next t => (t.readReg i).map Element.numbers
  | .fault _ => none
  | .refused _ => none

/-- The start state of the X table, with a second element of the first field. -/
def start : State := holding [(0, ⟨0xb, 5⟩), (1, ⟨0x13, 5⟩), (2, ⟨0xb, 6⟩)]

/-- `start`, whose host offers `gfmul e2, e0, e2` and then `gfadd e2, e0, e1`. -/
def offering : State := thenHost start [.issue ⟨0x4202, 0, 0⟩, .issue ⟨0x2201, 0, 0⟩]

/-- `start`, whose host offers `gfadd e2, e0, e1`, which fails. -/
def failing : State := thenHost start [.issue ⟨0x2201, 0, 0⟩]

/-! Well-formedness refuses operands that do not fit the ports (R43, R55). -/

theorem test_wellFormed_accepts : Instr.wellFormed w9 (.gfnew 15 0x1ff 0x1ff) = true := by decide
theorem test_wellFormed_refuses_wide_value : Instr.wellFormed w9 (.gfnew 15 0x200 0x1ff) = false := by decide
theorem test_wellFormed_refuses_wide_modulus : Instr.wellFormed w9 (.gfnew 15 0x1ff 0x200) = false := by decide

/-! Decoding (table E and the bit patterns of R63). -/

theorem test_decode_gfnew : decode (⟨0b0001_0001_0000_0000#16, 2, 0x11b⟩ : Command 9) = some (.gfnew 1 2 0x11b) ∧
    decode (⟨0b0001_1111_0000_0000#16, 2, 0x11b⟩ : Command 9) = some (.gfnew 15 2 0x11b) ∧
    decode (⟨0x1110#16, 2, 0x11b⟩ : Command 9) = none ∧ decode (⟨0x1001#16, 2, 0x11b⟩ : Command 9) = none := by decide
theorem test_decode_gfadd : decode (⟨0b0010_0011_0001_0010#16, 9, 9⟩ : Command 9) = some (.gfadd 3 1 2) ∧
    decode (⟨0x2000#16, 0, 0⟩ : Command 9) = some (.gfadd 0 0 0) := by decide
theorem test_decode_gfsub : decode (⟨0b0011_0100_0001_0010#16, 9, 9⟩ : Command 9) = some (.gfsub 4 1 2) := by decide
theorem test_decode_gfmul : decode (⟨0b0100_0101_0001_0010#16, 9, 9⟩ : Command 9) = some (.gfmul 5 1 2) ∧
    decode (⟨0x4fff#16, 0, 0⟩ : Command 9) = some (.gfmul 15 15 15) := by decide
theorem test_decode_gfeq : decode (⟨0b0101_0000_0011_0100#16, 9, 9⟩ : Command 9) = some (.gfeq 3 4) ∧
    decode (⟨0x5134#16, 0, 0⟩ : Command 9) = none := by decide
theorem test_decode_gfrd : decode (⟨0b0110_0000_0101_0000#16, 9, 9⟩ : Command 9) = some (.gfrd 5) ∧
    decode (⟨0x6051#16, 0, 0⟩ : Command 9) = none ∧ decode (⟨0x6150#16, 0, 0⟩ : Command 9) = none := by decide
theorem test_decode_reserved : decode (⟨0x0000#16, 0, 0⟩ : Command 9) = none ∧ decode (⟨0x7000#16, 0, 0⟩ : Command 9) = none ∧
    decode (⟨0xffff#16, 0, 0⟩ : Command 9) = none := by decide
theorem test_decodeTableWord : decodeTableWord 16 0x2312 = some (.gfadd 3 1 2) ∧
    decodeTableWord 16 0x1100 = some (.gfnew 1 0 0) ∧ decodeTableWord 16 0x7000 = none := by decide

/-! The functions (tables V, M, T1, T2). -/

theorem test_reduce : reduce 0x0 0x11b = 0 ∧ reduce 0xff 0x11b = 0xff ∧ reduce 0x100 0x11b = 0x1b ∧
    reduce 0x1ff 0x11b = 0xe4 ∧ reduce 0x8d80 0x11b = 0 ∧ reduce 0x8000 0x11b = 0x2f ∧ reduce 0xffff 0x11b = 0x35 ∧
    reduce 0xdeadbeef 0x11d = 0x13 ∧ reduce 0x5 0x1 = 0 ∧ reduce 0x0 0x1 = 0 ∧ reduce 0x7 0x2 = 1 ∧
    reduce 0x7 0x3 = 1 := by decide
theorem test_reduceSteps : reduceSteps 0x3f7e 0x13 = [(9, 0x197e), (8, 0xa7e), (7, 0x3fe), (5, 0x19e), (4, 0xae),
    (3, 0x36), (1, 0x10), (0, 0x3)] := by decide
theorem test_gfmul : gfmul 0x02 0x60 0x11b = 0xc0 ∧ gfmul 0x80 0x02 0x11b = 0x1b ∧ gfmul 0x02 0x87 0x11b = 0x15 ∧
    gfmul 0x57 0x83 0x11b = 0xc1 ∧ gfmul 0x83 0x57 0x11b = 0xc1 ∧ gfmul 0x53 0xca 0x11b = 0x01 ∧
    gfmul 0xff 0xff 0x11b = 0x13 ∧ gfmul 0xf 0xf 0x13 = 0xa ∧ gfmul 1 1 2 = 1 ∧ gfmul 0 0 1 = 0 ∧
    gfmul 3 3 6 = 3 := by decide
theorem test_gfmul_passes : mulPassCount 0x11b 9 ⟨0x02, 0x60, 0⟩ = 7 ∧ mulPassCount 0x11b 9 ⟨0x60, 0x02, 0⟩ = 2 ∧
    mulPassCount 0x11b 9 ⟨0xab, 0, 0⟩ = 0 := by decide
/-- Row 6 of table T1 and row 3 of table T2. -/
theorem test_gfmul_tables : (List.range 8).map (gfmul 6 · 0b1011) = [0, 6, 7, 1, 5, 3, 2, 4] ∧
    (List.range 4).map (gfmul 3 · 0b111) = [0, 3, 1, 2] := by decide

/-! The commands. -/

/-- V4, written over an element of another field. -/
theorem test_gfnew : response (exec (.gfnew 1 0x100 0x11b) start) = some (.ok, false, 0x1b, 0x11b) ∧
    register 1 (exec (.gfnew 1 0x100 0x11b) start) = some (0x11b, 0x1b) := by decide
/-- V28. -/
theorem test_gfnew_zero_modulus : exec (.gfnew 0 7 0) start =
    .next { start with rsp := some ⟨.err .invalidModulus, false, 0, 0⟩ } := rfl
/-- A7. -/
theorem test_gfadd : response (exec (.gfadd 3 1 2) (holding [(1, ⟨0x11b, 0xff⟩), (2, ⟨0x11b, 0x01⟩)])) =
    some (.ok, false, 0xfe, 0x11b) := by decide
/-- A12: one degree, two fields. -/
theorem test_gfadd_mismatch : response (exec (.gfadd 3 1 2) (holding [(1, ⟨0b1011, 1⟩), (2, ⟨0b1101, 1⟩)])) =
    some (.err .incompatibleField, false, 0, 0) := by decide
/-- A1. -/
theorem test_gfsub : register 4 (exec (.gfsub 4 1 2) (holding [(1, ⟨0x11b, 0x02⟩), (2, ⟨0x11b, 0x60⟩)])) =
    some (0x11b, 0x62) := by decide
/-- A13. -/
theorem test_gfsub_empty : response (exec (.gfsub 4 3 1) start) = some (.err .emptyRegister, false, 0, 0) := by decide
/-- M3, with the destination a source. -/
theorem test_gfmul_command : register 1 (exec (.gfmul 1 1 2) (holding [(1, ⟨0x11b, 0x80⟩), (2, ⟨0x11b, 0x02⟩)])) =
    some (0x11b, 0x1b) := by decide
/-- P4, command 8: all three registers one. -/
theorem test_gfmul_square : register 0 (exec (.gfmul 0 0 0) (holding [(0, ⟨0xb, 6⟩)])) = some (0xb, 2) := by decide
/-- Q4 and Q5. -/
theorem test_gfeq : response (exec (.gfeq 1 2) (holding [(1, ⟨0xb, 5⟩), (2, ⟨0xd, 5⟩)])) = some (.ok, false, 0, 0) ∧
    response (exec (.gfeq 1 1) (holding [(1, ⟨0xb, 5⟩)])) = some (.ok, true, 0, 0) := by decide
/-- Q6. -/
theorem test_gfeq_empty : response (exec (.gfeq 3 0) start) = some (.err .emptyRegister, false, 0, 0) := by decide
/-- Q9. -/
theorem test_gfrd : response (exec (.gfrd 1) (holding [(1, ⟨1, 0⟩)])) = some (.ok, false, 0, 1) := by decide
/-- Q10. -/
theorem test_gfrd_empty : response (exec (.gfrd 3) start) = some (.err .emptyRegister, false, 0, 0) := by decide

/-- An operand that no port of width 9 carries (R55). -/
theorem test_gfnew_too_wide : exec (.gfnew 0 512 1) start = .refused .operandTooWide ∧
    exec (.gfnew 0 1 512) start = .refused .operandTooWide := ⟨rfl, rfl⟩

/-! Priority (table X): the response, and the register file unchanged. -/

theorem test_priority : runCommand start ⟨0x1210, 1, 0⟩ = .next (start.perform (raise .illegalCommand start.engine)) ∧
    runCommand start ⟨0x1200, 1, 0⟩ = .next (start.perform (raise .invalidModulus start.engine)) ∧
    runCommand start ⟨0x2231, 0, 0⟩ = .next (start.perform (raise .emptyRegister start.engine)) ∧
    runCommand start ⟨0x2001, 0, 0⟩ = .next (start.perform (raise .incompatibleField start.engine)) ∧
    runCommand start ⟨0x6031, 0, 0⟩ = .next (start.perform (raise .illegalCommand start.engine)) := ⟨rfl, rfl, rfl, rfl, rfl⟩

/-! Steps. -/

theorem test_withFetchWord_runs : step (State.reset.withFetchWord 16 0x1100) =
    .next { State.reset with rsp := some ⟨.err .invalidModulus, false, 0, 0⟩ } := rfl
theorem test_idle : step State.reset = .next State.reset := rfl
theorem test_reset_during : step (thenHost start [.resetDuring ⟨0x4202, 0, 0⟩]) = .next (State.resetOf w9) := rfl

/-! Host conversions (table H). -/

theorem test_fromHex : fromHex "0x02".toList = .ok 2 ∧ fromHex "0X1B".toList = .ok 27 ∧
    (["0x", "62", "0xg1", "", "-0x2", " 0x2", "0x1_0"].all fun s =>
      decide (fromHex s.toList = .error .malformedEncoding)) = true := by decide
theorem test_fromBits : fromBits [1, 0, 0, 0, 1, 1, 0, 1, 1] = .ok 283 ∧ fromBits [0, 0, 0, 0, 0, 0, 1, 0] = .ok 2 ∧
    fromBits [] = .ok 0 ∧ fromBits [1, 2, 0] = .error .malformedEncoding := by decide
theorem test_toHex : toHex 0x62 = "0x62".toList ∧ toHex 2 = "0x2".toList ∧ toHex 0 = "0x0".toList ∧
    toHex 0xc0 = "0xc0".toList := by decide
theorem test_toBits : toBits 0x02 0x11b = [0, 0, 0, 0, 0, 0, 1, 0] ∧ toBits 0b11 0b1011 = [0, 1, 1] ∧
    toBits 0 0x1 = [] := by decide
theorem test_toPolynomial : toPolynomial 0x02 = "x".toList ∧ toPolynomial 0 = "0".toList ∧
    toPolynomial 3 = "x + 1".toList ∧ toPolynomial 0x11b = "x^8 + x^4 + x^3 + x + 1".toList ∧
    toPolynomial 0x400 = "x^10".toList := by decide

/-! Assembler text (R69, R71; the texts of programs P1 and P2). -/

theorem test_assemble : assemble w9 "gfadd e3, e1, e2".toList = .ok (some ⟨0x2312, 0, 0⟩) ∧
    assemble w9 "gfnew e1, 0b101, 0b10011 ; the second".toList = .ok (some ⟨0x1100, 5, 0x13⟩) ∧
    assemble w9 "gfeq e3, e4".toList = .ok (some ⟨0x5034, 0, 0⟩) ∧
    assemble w9 "gfrd e5".toList = .ok (some ⟨0x6050, 0, 0⟩) := by decide
theorem test_assemble_pseudo : assemble w9 "gfnewh e1, \"0x02\", 0x11b".toList = .ok (some ⟨0x1100, 2, 0x11b⟩) ∧
    assemble w9 "gfnewb e2, [1, 0, 1], 11".toList = .ok (some ⟨0x1200, 5, 11⟩) ∧
    assemble w9 "gfone e3, 0x11b".toList = .ok (some ⟨0x1300, 1, 0x11b⟩) ∧
    assemble w9 "gfzero e3, 0x11b".toList = .ok (some ⟨0x1300, 0, 0x11b⟩) ∧
    assemble w9 "gfnewb e2, [1, 2, 0], 11".toList = .error (.host .malformedEncoding) := by decide
theorem test_assemble_refuses : assemble w9 "gfrd e16".toList = .error .noSuchLine ∧
    assemble w9 "gfnew e1, 512, 3".toList = .error (.host .operandTooWide) := by decide

/-! Witnesses: a state and operands that meet the hypotheses of each statement that has any, each clause at a boundary
value. -/

/-- The invariant of a state, checked register by register. -/
theorem inv_of_check {s : State} (h : ∀ i : Reg, ∀ e ∈ s.readReg i, e.Ok) : s.Inv := fun i e he => h i e he

theorem witness_inv : start.Inv := inv_of_check (by decide)
theorem witness_inv_offering : offering.Inv := inv_of_check (by decide)
theorem witness_inv_one : (holding [(0, ⟨0xb, 6⟩), (1, ⟨0xb, 1⟩)]).Inv := inv_of_check (by decide)
theorem witness_inv_least_field : (holding [(0, ⟨1, 0⟩)]).Inv := inv_of_check (by decide)

theorem witness_DataWordsAreReadByGfnewOnly : start.rsp = none ∧ (0x0fff#16).extractLsb' 12 4 ≠ 1#4 ∧
    (0x2000#16).extractLsb' 12 4 ≠ 1#4 ∧ (0xffff#16).extractLsb' 12 4 ≠ 1#4 := by decide

theorem witness_StepRunsTheDecodedCommand : offering.script = [.issue ⟨0x4202, 0, 0⟩, .issue ⟨0x2201, 0, 0⟩] ∧
    offering.rsp = none ∧ decode (⟨0x4202, 0, 0⟩ : Command 9) = some (.gfmul 2 0 2) := by decide

/-- The fields of a word as the statement about illegal words names them. -/
def illegalByFields (w : CommandWord) : Bool :=
  let op := (w.extractLsb' 12 4).toNat
  let rd := (w.extractLsb' 8 4).toNat
  let ra := (w.extractLsb' 4 4).toNat
  let rb := (w.extractLsb' 0 4).toNat
  decide (op = 0 ∨ 7 ≤ op ∨ (op = 1 ∧ (ra ≠ 0 ∨ rb ≠ 0)) ∨ (op = 5 ∧ rd ≠ 0) ∨ (op = 6 ∧ (rd ≠ 0 ∨ rb ≠ 0)))

theorem witness_IllegalWordsAndNoOthersAnswerIllegalCommand :
    offering.script = [.issue ⟨0x4202, 0, 0⟩, .issue ⟨0x2201, 0, 0⟩] ∧ offering.rsp = none ∧
    [0x0000, 0x0fff, 0x1001, 0x1010, 0x5100, 0x6001, 0x6100, 0x7000, 0xffff].all illegalByFields = true ∧
    [0x1000, 0x1f00, 0x2000, 0x3fff, 0x4fff, 0x5000, 0x50ff, 0x6000, 0x60f0].all (!illegalByFields ·) = true := by
  decide

/-- GFNEW: the two sides of `p ≠ 0` are 1 and 0; numbers at the edge of width 9; must-be-zero fields at 1. -/
theorem witness_GfnewConstructsTheReducedElement : (1 : Nat) ≠ 0 ∧ ((1 : Reg) ≠ 0 ∨ (0 : Reg) ≠ 0) ∧
    parseNumber "511".toList = some 511 ∧ w9.Fits 511 ∧ parseNumber "0x11b".toList = some 0x11b ∧ w9.Fits 0x11b := by
  decide

/-- The three clauses of GFADD, GFSUB and GFMUL: one field, an empty source on either side, two fields. -/
theorem witness_two_sources : start.readReg 0 = some ⟨0xb, 5⟩ ∧ start.readReg 2 = some ⟨0xb, 6⟩ ∧
    start.readReg 1 = some ⟨0x13, 5⟩ ∧ start.readReg 3 = none ∧ start.readReg 15 = none ∧
    (0xb : Nat) ≠ 0x13 := by decide

theorem witness_GfeqComparesTwoElements : start.readReg 0 = some ⟨0xb, 5⟩ ∧
    start.readReg 1 = some ⟨0x13, 5⟩ ∧ start.readReg 3 = none ∧ (1 : Reg) ≠ 0 := by decide

theorem witness_GfrdReadsAnElementOut : start.Inv ∧ start.readReg 0 = some ⟨0xb, 5⟩ ∧
    start.readReg 3 = none ∧ ((1 : Reg) ≠ 0 ∨ (0 : Reg) ≠ 0) := ⟨witness_inv, by decide⟩

theorem witness_ReduceReturnsTheCanonicalRemainder : (1 : Nat) ≠ 0 ∧ (0x11b : Nat) ≠ 0 ∧ bl 0x1b < bl 0x11b ∧
    0x100 ^^^ 0x1b = clmul 1 0x11b := by decide

theorem witness_ReductionPassesShrinkTheValueAndAreBounded : (0x11b : Nat) ≠ 0 ∧ bl 0xff < bl 0x11b ∧
    bl 0x11b ≤ bl 0x100 ∧ (1 : Nat) ≠ 0 := by decide

theorem witness_ReductionCornerCases : (0x11b : Nat) ≠ 0 ∧ bl 0xff < bl 0x11b ∧ bl 0x1ff = bl 0x11b := by decide

theorem witness_MultiplierLoopInvariants : (1 : Nat) ≠ 0 ∧ bl 0 < bl 1 ∧ (0 : Nat) ≤ bl 0 ∧
    (0x11b : Nat) ≠ 0 ∧ bl 0xff < bl 0x11b ∧ 8 ≤ bl 0xff ∧ bl 0xff ≤ 8 ∧ w9.Fits 0x11b := by decide

theorem witness_GfmulWritesTheReducedCarrylessProduct : (0xb : Nat) ≠ 0 ∧ bl 5 < bl 0xb ∧ bl 6 < bl 0xb ∧
    start.readReg 0 = some ⟨0xb, 5⟩ ∧ start.readReg 2 = some ⟨0xb, 6⟩ ∧ (5 : Nat) ≠ 0 ∧ (6 : Nat) ≠ 0 := by
  decide

theorem witness_MultiplicationLaws : (holding [(0, ⟨0xb, 6⟩), (1, ⟨0xb, 1⟩)]).Inv ∧
    (holding [(0, ⟨0xb, 6⟩), (1, ⟨0xb, 1⟩)]).readReg 0 = some ⟨0xb, 6⟩ ∧
    (holding [(0, ⟨0xb, 6⟩), (1, ⟨0xb, 1⟩)]).readReg 1 = some ⟨0xb, 1⟩ ∧
    (0xb : Nat) ≠ 0 ∧ bl 7 < bl 0xb := ⟨witness_inv_one, by decide⟩

theorem witness_ReducibleModuliHaveZeroDivisors :
    (holding [(0, ⟨0b110, 0b10⟩), (1, ⟨0b110, 0b11⟩)]).readReg 0 = some ⟨0b110, 0b10⟩ ∧
    (holding [(0, ⟨0b110, 0b10⟩), (1, ⟨0b110, 0b11⟩)]).readReg 1 = some ⟨0b110, 0b11⟩ ∧
    (holding [(0, ⟨0b101, 0b11⟩)]).readReg 0 = some ⟨0b101, 0b11⟩ ∧
    (holding [(0, ⟨0b100, 0b10⟩)]).readReg 0 = some ⟨0b100, 0b10⟩ := by decide

theorem witness_AdditionLaws : start.readReg 0 = some ⟨0xb, 5⟩ ∧ start.readReg 2 = some ⟨0xb, 6⟩ ∧
    (3 : Reg) ≠ 0 ∧ (3 : Reg) ≠ 2 ∧ (holding [(0, ⟨0xb, 5⟩), (1, ⟨0xb, 0⟩)]).readReg 0 = some ⟨0xb, 5⟩ ∧
    (holding [(0, ⟨0xb, 5⟩), (1, ⟨0xb, 0⟩)]).readReg 1 = some ⟨0xb, 0⟩ := by decide

/-- For the statements about an issued command: OneStatusInPriorityOrder, StatusCodesOfTheEngine,
AStepIsAFunctionOfRegistersAndCommand and EveryCommandCompletesWithAResponse. -/
theorem witness_issued : offering.script = .issue ⟨0x4202, 0, 0⟩ :: [.issue ⟨0x2201, 0, 0⟩] ∧ offering.rsp = none := by
  decide

/-- For AnErrorHasNoOtherEffect and ErrorsAreNotSticky. -/
theorem witness_AnErrorHasNoOtherEffect : failing.script = .issue ⟨0x2201, 0, 0⟩ :: [] ∧ failing.rsp = none ∧
    failing.rspReady = true ∧
    ∃ t r, step failing = .next t ∧ t.rsp = some r ∧ r = ⟨.err .incompatibleField, false, 0, 0⟩ ∧ r.st ≠ .ok :=
  ⟨rfl, rfl, rfl, _, _, rfl, rfl, rfl, by decide⟩

/-- For CommandsWriteOnlyTheirDestination: a success and an error, and another state that agrees on the sources. -/
theorem witness_CommandsWriteOnlyTheirDestination : (∃ t, exec (.gfmul 2 0 2) start = .next t) ∧
    (∃ t r, exec (.gfadd 2 0 1) start = .next t ∧ t.rsp = some r ∧ r.st ≠ .ok) ∧ (3 : Reg) ≠ 2 ∧
    offering.readReg 0 = start.readReg 0 ∧ offering.readReg 2 = start.readReg 2 :=
  ⟨⟨_, rfl⟩, ⟨_, _, rfl, rfl, by decide⟩, by decide, rfl, rfl⟩

theorem witness_AResultIsReadBackByTheNextCommand : (Instr.gfmul 2 0 2).dest = some 2 ∧
    ∃ t r, exec (.gfmul 2 0 2) start = .next t ∧ t.rsp = some r ∧ r.st = .ok :=
  ⟨rfl, _, _, rfl, rfl, rfl⟩

theorem witness_DestinationMayBeASource : start.Inv ∧ start.readReg 0 = some ⟨0xb, 5⟩ ∧
    start.readReg 2 = some ⟨0xb, 6⟩ := ⟨witness_inv, by decide⟩

theorem witness_ReadsHaveNoSideEffects : (∃ t, exec (.gfrd 0) start = .next t) ∧ (∃ t, exec (.gfeq 0 1) start = .next t) ∧
    (∀ a ∈ (Instr.gfrd 0).sources, offering.engine.read a = start.readReg a) ∧
    (∀ a ∈ (Instr.gfeq 0 1).sources, offering.engine.read a = start.readReg a) :=
  ⟨⟨_, rfl⟩, ⟨_, rfl⟩, fun _ _ => rfl, fun _ _ => rfl⟩

/-- For GfrdShowsAllOfTheState: the premise holds, and every GFRD answers. -/
theorem witness_GfrdShowsAllOfTheState : (∀ a, ∃ r, exec (.gfrd a) start = .next { start with rsp := some r }) ∧
    ∀ a r r', exec (.gfrd a) start = .next { start with rsp := some r } →
      exec (.gfrd a) { start with engine := start.engine } = .next { start with engine := start.engine, rsp := some r' } →
      r = r' := by
  refine ⟨fun a => ?_, fun a r r' h h' => ?_⟩
  · cases h : start.engine.read a with
    | none => exact ⟨.ofError .emptyRegister, by rw [exec, execGfrd, gfrdOn_of_empty h]; rfl⟩
    | some x => exact ⟨.ofElement x, by rw [exec, execGfrd, gfrdOn_of_valid h]⟩
  · rw [h] at h'
    simpa using h'

theorem witness_ModuliEnterOnlyThroughGfnew : (∃ t, step offering = .next t ∧ t.readReg 2 = some ⟨0xb, 3⟩) ∧
    ∃ t, step (thenHost start [.issue ⟨0x1300, 2, 0x11b⟩]) = .next t ∧ t.readReg 3 = some ⟨0x11b, 2⟩ :=
  ⟨⟨_, rfl, by decide⟩, ⟨_, rfl, by decide⟩⟩

theorem witness_WhenRegistersBecomeEmptyOrValid :
    (∃ t, step (thenHost start [.reset]) = .next t ∧ start.readReg 0 ≠ none ∧ t.readReg 0 = none) ∧
    ∃ t, step (thenHost start [.issue ⟨0x1300, 2, 0x11b⟩]) = .next t ∧ start.readReg 3 = none ∧
      t.readReg 3 ≠ none :=
  ⟨⟨_, rfl, by decide, by decide⟩, ⟨_, rfl, by decide, by decide⟩⟩

theorem witness_TheFirstSuccessIsAGfnew : (∀ a : Reg, (State.resetOf w9).readReg a = none) ∧
    ∃ t r, exec (.gfnew 1 2 0x11b) (State.resetOf w9) = .next t ∧ t.rsp = some r ∧ r.st = .ok :=
  ⟨by decide, _, _, rfl, rfl, rfl⟩

theorem witness_ResetEmptiesTheEngine : (thenHost start [.reset]).script = .reset :: [] ∧
    (thenHost start [.resetDuring ⟨0x4202, 0, 0⟩]).script = .resetDuring ⟨0x4202, 0, 0⟩ :: [] ∧
    (thenHost start [.reset]).rspTaken = false ∧ (thenHost start [.resetDuring ⟨0x4202, 0, 0⟩]).rspTaken = false := by
  decide

/-- For OfferedCommandsWaitForTheResponseToBeTaken: an idle engine, and a response waiting before a host that is ready and
before one that is not. -/
theorem witness_OfferedCommandsWait : start.script = [] ∧ start.rsp = none ∧
    ({ offering with rsp := some ⟨.ok, false, 3, 0xb⟩ } : State).rspReady = true ∧
    ({ offering with rsp := some ⟨.ok, false, 3, 0xb⟩, rspReady := false } : State).script =
      .issue ⟨0x4202, 0, 0⟩ :: [.issue ⟨0x2201, 0, 0⟩] := by decide

theorem witness_OneResponsePerCommandInIssueOrder :
    offering.script = [⟨0x4202, 0, 0⟩, ⟨0x2201, 0, 0⟩].map HostEvent.issue ++ [] ∧ offering.rsp = none ∧
    offering.rspReady = true := by decide

theorem witness_StepKeepsReducedElements : offering.Inv ∧ ∃ t, step offering = .next t := ⟨witness_inv_offering, _, rfl⟩

theorem witness_StepKeepsWidth : offering.Inv ∧ (∃ t, step offering = .next t) ∧
    offering.script = .issue ⟨0x4202, 0, 0⟩ :: [.issue ⟨0x2201, 0, 0⟩] ∧ offering.rsp = none ∧
    decode (⟨0x4202, 0, 0⟩ : Command 9) = some (.gfmul 2 0 2) ∧
    (offering.readReg 0).map Element.numbers = some (0xb, 5) ∧
    (offering.readReg 2).map Element.numbers = some (0xb, 6) := ⟨witness_inv_offering, ⟨_, rfl⟩, by decide⟩

/-- The widest operands of width 9, and the first that are too wide on either port. -/
theorem witness_WideInstructionsNeverReachTheEngine : Instr.wellFormed w9 (.gfnew 0 511 511) = true ∧
    Instr.wellFormed w9 (.gfnew 0 512 1) = false ∧ Instr.wellFormed w9 (.gfnew 0 1 512) = false ∧
    decode (⟨0x1000, 511, 511⟩ : Command 9) = some (.gfnew 0 511 511) := by decide

theorem witness_IntermediatesFitTheWidth : w9.Fits 0x1ff ∧ w9.Fits 0x11b ∧ (0x11b : Nat) ≠ 0 ∧ bl 0xff < bl 0x11b ∧
    w1.Fits 1 ∧ (1 : Nat) ≠ 0 ∧ bl 0 < bl 1 := by decide

theorem witness_EncodingRoundTrips : offering.Inv ∧ offering.readReg 0 = some ⟨0xb, 5⟩ :=
  ⟨witness_inv_offering, rfl⟩

/-- A literal with every boundary digit, and characters just outside the digits. -/
theorem witness_HexLiteralsAcceptedExactlyByTheGrammar : fromHex "0x09afAF".toList = .ok 0x09afaf ∧
    fromHex "0x/".toList = .error .malformedEncoding ∧ fromHex "0x:".toList = .error .malformedEncoding ∧
    fromHex "0x@".toList = .error .malformedEncoding ∧ fromHex "0xG".toList = .error .malformedEncoding ∧
    fromHex "0x`".toList = .error .malformedEncoding ∧ fromHex "0xg".toList = .error .malformedEncoding := by decide

theorem witness_HexRenderingIsCanonical : toHex 0 = "0x0".toList ∧ (1 : Nat) ≠ 0 := by decide

theorem witness_BitSequencesPackMostSignificantFirst : (∃ b ∈ [1, 2, 0], b ≠ 0 ∧ b ≠ 1) ∧
    ∀ b ∈ [1, 0, 1], b = 0 ∨ b = 1 := by decide

theorem witness_BitVectorHasTheWidthOfTheDegree : 0 < bl 0x11b - 1 ∧ 7 < bl 0x11b - 1 := by decide

theorem witness_PolynomialRenderingListsTermsInDescendingOrder : bl 0 ≤ 0 ∧ bl 1 ≤ 1 ∧ bl 0x1b ≤ 8 ∧ (1 : Nat) ≠ 0 := by
  decide

theorem witness_PseudoCommandsExpandToOneGfnew : parseNumber "0x11b".toList = some 0x11b ∧ '"' ∉ "0x02".toList ∧
    w9.Fits 0x11b ∧ ¬ w1.Fits 0x11b := by decide

theorem witness_TheHostRefusesWideOperands : 2 ^ w9.W ≤ 512 ∧ 511 < 2 ^ w9.W := by decide

end Sys2Proof.Tests
end

section
/-! PROOFS. The family 10_state.md: the state after reset (R33), the invariant of the valid registers (R24, R25), and what
a command writes and reads (R26). -/

namespace Sys2Proof.Machine

/-! Good elements (R24): what each way of forming an element gives. -/

theorem Element.ok_reduce {W : Nat} {p : Word W} (hp : p.toNat ≠ 0) (v : Nat) :
    (⟨p, zext W (reduce v p.toNat)⟩ : Element W).Ok :=
  ⟨hp, by simpa only [toNat_zext_reduce hp] using bl_reduce_lt hp v⟩

theorem Element.ok_gfmul {W : Nat} {p : Word W} (hp : p.toNat ≠ 0) (x y : Nat) :
    (⟨p, zext W (gfmul x y p.toNat)⟩ : Element W).Ok :=
  ⟨hp, by simpa only [toNat_zext_gfmul hp] using bl_gfmul_lt hp x y⟩

/-- The sum of two reduced values is reduced without a further reduction (R102). -/
theorem Element.ok_xor {W : Nat} {x y : Element W} (hx : x.Ok) (hy : y.Ok) (hm : x.modulus = y.modulus) :
    (⟨x.modulus, zext W (x.value.toNat ^^^ y.value.toNat)⟩ : Element W).Ok := by
  refine ⟨hx.1, ?_⟩
  have hlt : max (bl x.value.toNat) (bl y.value.toNat) < bl x.modulus.toNat := max_lt hx.2 (hm ▸ hy.2)
  rw [zext_xor, BitVec.toNat_xor]
  exact (bl_xor_le _ _).trans_lt hlt

/-! The invariant, on the engine (R24, R25). -/

/-- The invariant of R24 on the engine alone: every valid register holds a good element. -/
def Engine.Ok {W : Nat} (E : Engine W) : Prop := ∀ i e, E.read i = some e → e.Ok

theorem State.inv_iff (s : State) : s.Inv ↔ s.engine.Ok := Iff.rfl

theorem Engine.ok_empty (W : Nat) : (Engine.empty W).Ok := by
  intro i e h
  simp at h

theorem Engine.Ok.write {W : Nat} {E : Engine W} (hE : E.Ok) (d : Reg) {e : Element W} (he : e.Ok) :
    (E.write d e).Ok := by
  intro i e' h
  rw [Engine.read_write] at h
  split at h
  · cases h
    exact he
  · exact hE i e' h

theorem ResultOf.keeps_ok {W : Nat} {i : Instr} {E : Engine W} {r : Result W} (h : ResultOf i E r) (hE : E.Ok) :
    r.1.Ok := by
  cases h with
  | error | equality | readOut => exact hE
  | construction d v p _ hp => exact hE.write d (Element.ok_reduce hp v.toNat)
  | combination d a b x y f which ha hb hm =>
    refine hE.write d ?_
    have hx : x.Ok := hE a x ha
    have hy : y.Ok := hE b y hb
    rcases which with ⟨_, rfl⟩ | ⟨_, rfl⟩ | ⟨_, rfl⟩
    · exact Element.ok_xor hx hy hm
    · exact Element.ok_xor hx hy hm
    · exact Element.ok_gfmul hx.1 _ _

theorem engineStep_keeps_ok {W : Nat} {E : Engine W} (hE : E.Ok) (c : Command W) : (engineStep E c).1.Ok := by
  rcases engineStep_cases E c with ⟨_, h⟩ | ⟨i, _, h⟩
  · rw [h]
    exact hE
  · exact h.keeps_ok hE

/-- Settles O40: a reset event leaves no valid register, a command keeps the engine's invariant, and nothing else a
step can do touches a register. -/
theorem stepKeepsReducedElements : Obligations.StepKeepsReducedElements := by
  intro s t hs h
  rw [State.inv_iff] at hs ⊢
  rcases step_cases s with hn | ⟨_, _, _, hn⟩ | ⟨_, _, _, hn⟩ | ⟨_, _, _, _, hn⟩ | ⟨c, rest, _, _, hn⟩
  · cases hn.symm.trans h
    exact hs
  · cases hn.symm.trans h
    exact hs
  · cases hn.symm.trans h
    exact hs
  · cases hn.symm.trans h
    exact Engine.ok_empty s.cfg.W
  · rw [runCommand_eq] at hn
    cases hn.symm.trans h
    exact engineStep_keeps_ok hs c

/-! An instruction as a function of the engine (R50). -/

/-- The meaning of an instruction on an engine. -/
def execOn {W : Nat} : Instr → Engine W → Result W
  | .gfnew d dv dm => gfnewOn d (zext W dv) (zext W dm)
  | .gfadd d a b => gfaddOn d a b
  | .gfsub d a b => gfsubOn d a b
  | .gfmul d a b => gfmulOn d a b
  | .gfeq a b => gfeqOn a b
  | .gfrd a => gfrdOn a

theorem wellFormed_gfnew_iff (cfg : Config) (d : Reg) (dv dm : Nat) :
    (Instr.gfnew d dv dm).wellFormed cfg = true ↔ dv < 2 ^ cfg.W ∧ dm < 2 ^ cfg.W := by
  rw [Instr.wellFormed, Bool.and_eq_true, decide_eq_true_eq, decide_eq_true_eq]

theorem exec_of_wellFormed {i : Instr} {s : State} (h : i.wellFormed s.cfg = true) :
    exec i s = .next (s.perform (execOn i s.engine)) := by
  cases i with
  | gfnew d dv dm =>
    obtain ⟨hv, hm⟩ := (wellFormed_gfnew_iff s.cfg d dv dm).1 h
    exact execGfnew_of_fits d hv hm
  | gfadd | gfsub | gfmul | gfeq | gfrd => rfl

theorem exec_of_not_wellFormed {i : Instr} {s : State} (h : i.wellFormed s.cfg ≠ true) :
    exec i s = .refused .operandTooWide := by
  cases i with
  | gfnew d dv dm => exact execGfnew_of_wide d (mt (wellFormed_gfnew_iff s.cfg d dv dm).2 h)
  | gfadd | gfsub | gfmul | gfeq | gfrd => exact absurd rfl h

/-- An instruction that answers a next state is well formed, and that state is the one of its meaning on the engine. -/
theorem exec_next {i : Instr} {s t : State} (h : exec i s = .next t) :
    i.wellFormed s.cfg = true ∧ t = s.perform (execOn i s.engine) := by
  by_cases hw : i.wellFormed s.cfg = true
  · cases (exec_of_wellFormed hw).symm.trans h
    exact ⟨hw, rfl⟩
  · cases (exec_of_not_wellFormed hw).symm.trans h

theorem execOn_result {cfg : Config} {i : Instr} (h : i.wellFormed cfg = true) (E : Engine cfg.W) :
    ResultOf i E (execOn i E) := by
  cases i with
  | gfnew d dv dm =>
    obtain ⟨hv, hm⟩ := (wellFormed_gfnew_iff cfg d dv dm).1 h
    have hr := gfnewOn_result d (zext cfg.W dv) (zext cfg.W dm) E
    rwa [toNat_zext ((bl_le_iff _ _).2 hv), toNat_zext ((bl_le_iff _ _).2 hm)] at hr
  | gfadd d a b => exact .of_combine (.inl ⟨rfl, rfl⟩) E
  | gfsub d a b => exact .of_combine (.inr (.inl ⟨rfl, rfl⟩)) E
  | gfmul d a b => exact .of_combine (.inr (.inr ⟨rfl, rfl⟩)) E
  | gfeq a b => exact gfeqOn_result a b E
  | gfrd a => exact gfrdOn_result a E

/-! The `writes` column of R26: what a result leaves unchanged. -/

theorem dest_of_combination {i : Instr} {d a b : Reg} {f : Nat → Nat → Nat → Nat}
    (which : i = .gfadd d a b ∧ f = (fun x y _ => gfadd x y) ∨ i = .gfsub d a b ∧ f = (fun x y _ => gfsub x y) ∨
      i = .gfmul d a b ∧ f = gfmul) : i.dest = some d := by
  rcases which with ⟨rfl, _⟩ | ⟨rfl, _⟩ | ⟨rfl, _⟩ <;> rfl

section
variable {W : Nat} {i : Instr} {E : Engine W} {r : Result W}

theorem ResultOf.read_of_not_dest (h : ResultOf i E r) {j : Reg} (hj : i.dest ≠ some j) : r.1.read j = E.read j := by
  cases h with
  | error | equality | readOut => rfl
  | construction d _ _ hi =>
    subst hi
    exact Engine.read_write_of_ne E _ (fun hd => hj (congrArg some hd))
  | combination d a b x y f which =>
    exact Engine.read_write_of_ne E _ (fun hd => hj ((dest_of_combination which).trans (congrArg some hd)))

theorem ResultOf.engine_of_noDest (h : ResultOf i E r) (hi : i.dest = none) : r.1 = E :=
  Engine.ext_read fun j => h.read_of_not_dest (j := j) (by simp [hi])

theorem ResultOf.engine_of_error (h : ResultOf i E r) (hst : r.2.st ≠ .ok) : r.1 = E := by
  cases h with
  | error | equality | readOut => rfl
  | construction | combination => exact absurd rfl hst

/-- A success leaves in the destination the element that its response returns (R44). -/
theorem ResultOf.read_dest (h : ResultOf i E r) {d : Reg} (hd : i.dest = some d) (hst : r.2.st = .ok) :
    r.1.read d = some ⟨r.2.rm, r.2.rv⟩ := by
  cases h with
  | error => cases hst
  | equality _ hn | readOut _ _ hn => cases hn.symm.trans hd
  | construction d' _ _ hi =>
    subst hi
    cases hd
    exact Engine.read_write_self E d _
  | combination d' a b x y f which =>
    cases (dest_of_combination which).symm.trans hd
    exact Engine.read_write_self E d _

end

/-! The `reads` column of R26: engines that agree on the sources of an instruction give it the same response. -/

section
variable {W : Nat} {E F : Engine W} {a b : Reg}

theorem gfnewOn_response_indep (d : Reg) (dv dm : Word W) (E F : Engine W) :
    (gfnewOn d dv dm F).2 = (gfnewOn d dv dm E).2 := by
  by_cases h : dm.toNat = 0
  · simp only [gfnewOn_of_eq d dv h, raise]
  · simp only [gfnewOn_of_ne d dv h, complete]

theorem sourcePair_congr (ha : F.read a = E.read a) (hb : F.read b = E.read b) :
    sourcePair F a b = sourcePair E a b := by
  simp only [sourcePair, ha, hb]

theorem combine_response_congr (f : Nat → Nat → Nat → Nat) (d : Reg) (ha : F.read a = E.read a)
    (hb : F.read b = E.read b) : (combine f d a b F).2 = (combine f d a b E).2 := by
  simp only [combine, compatiblePair, sourcePair_congr ha hb]
  split <;> rfl

theorem gfeqOn_response_congr (ha : F.read a = E.read a) (hb : F.read b = E.read b) :
    (gfeqOn a b F).2 = (gfeqOn a b E).2 := by
  simp only [gfeqOn, sourcePair_congr ha hb]
  split <;> rfl

theorem gfrdOn_response_congr (ha : F.read a = E.read a) : (gfrdOn a F).2 = (gfrdOn a E).2 := by
  simp only [gfrdOn, source, ha]
  split <;> rfl

end

theorem execOn_response_congr {W : Nat} {i : Instr} {E F : Engine W} (h : ∀ a ∈ i.sources, F.read a = E.read a) :
    (execOn i F).2 = (execOn i E).2 := by
  cases i with
  | gfnew d dv dm => exact gfnewOn_response_indep d _ _ E F
  | gfadd d a b | gfsub d a b | gfmul d a b =>
    exact combine_response_congr _ d (h a (by simp [Instr.sources])) (h b (by simp [Instr.sources]))
  | gfeq a b => exact gfeqOn_response_congr (h a (by simp [Instr.sources])) (h b (by simp [Instr.sources]))
  | gfrd a => exact gfrdOn_response_congr (h a (by simp [Instr.sources]))

/-- Where the response is the same, a success writes the same element into its destination. -/
theorem execOn_dest_congr {cfg : Config} {i : Instr} (hw : i.wellFormed cfg = true) {E F : Engine cfg.W}
    (hr : (execOn i F).2 = (execOn i E).2) {d : Reg} (hd : i.dest = some d) (hst : (execOn i E).2.st = .ok) :
    (execOn i F).1.read d = (execOn i E).1.read d := by
  rw [(execOn_result hw E).read_dest hd hst, (execOn_result hw F).read_dest hd (hr ▸ hst), hr]

/-- Settles O25: the frame is that of the result on the engine; the response depends on the sources alone, and the
element written is the one the response returns. -/
theorem commandsWriteOnlyTheirDestination : Obligations.CommandsWriteOnlyTheirDestination := by
  intro i s t h
  obtain ⟨hw, rfl⟩ := exec_next h
  have hE := execOn_result hw s.engine
  refine ⟨_, _, rfl, fun j hj => hE.read_of_not_dest ?_, hE.engine_of_error, fun F rsp rdy script record hF => ?_⟩
  · cases i with
    | gfnew | gfadd | gfsub | gfmul => simpa [Instr.dest, eq_comm] using hj
    | gfeq | gfrd => simp [Instr.dest]
  · have hsources : ∀ a ∈ i.sources, F.read a = s.readReg a := by
      cases i with
      | gfnew => simp [Instr.sources]
      | gfadd | gfsub | gfmul | gfeq | gfrd => simpa [Instr.sources] using hF
    have hr : (execOn i F).2 = (execOn i s.engine).2 := execOn_response_congr hsources
    refine ⟨(execOn i F).1, ?_, ?_⟩
    · rw [← hr]
      exact exec_of_wellFormed hw
    · cases i with
      | gfnew | gfadd | gfsub | gfmul => exact execOn_dest_congr hw hr rfl
      | gfeq | gfrd => exact (execOn_result hw F).engine_of_noDest rfl

/-! Reset (R33). -/

/-- Settles O33: the register file of the reset state is the empty one, and no response is presented. -/
theorem stateAfterReset : Obligations.StateAfterReset :=
  ⟨State.readReg_resetOf Config.engine, rfl, rfl⟩

end Sys2Proof.Machine
end

section
/-! PROOFS. The family 20_memory.md: no value inside the engine needs more than `W` bits (R42), and the host refuses
operands that do (R55). -/

namespace Sys2Proof.Machine

/-! Bit lengths inside `reduce` (R82, R83). -/

theorem bl_shiftLeft_le (n s : Nat) : bl (n <<< s) ≤ bl n + s := by
  by_cases h : n = 0
  · simp [h]
  · exact (bl_shiftLeft h s).le

/-- At every pass of `reduce` the aligned modulus is no longer than the value at the start, and what the pass leaves is
shorter. -/
theorem bl_of_mem_reduceSteps {p : Nat} (hp : p ≠ 0) (v : Nat) :
    ∀ q ∈ reduceSteps v p, bl (p <<< q.1) ≤ bl v ∧ bl q.2 < bl v := by
  induction v using reduce_induction hp with
  | done v h => simp [reduceSteps_eq hp, not_le.2 h]
  | pass v h ih =>
    have hlt : bl (reducePass v p) < bl v := bl_reducePass_lt hp h
    rw [reduceSteps_eq hp, if_pos h, List.forall_mem_cons]
    refine ⟨⟨?_, hlt⟩, fun q hq => ?_⟩
    · rw [bl_shiftLeft hp, Nat.add_sub_cancel' h]
    · obtain ⟨hshift, hval⟩ := ih q hq
      exact ⟨hshift.trans hlt.le, hval.trans hlt⟩

/-! Bit lengths inside the adder and the multiplier (R102, R115, R116). -/

theorem bl_gfadd_lt {x y p : Nat} (hx : bl x < bl p) (hy : bl y < bl p) : bl (gfadd x y) < bl p :=
  (bl_xor_le x y).trans_lt (max_lt hx hy)

theorem mulAfter_b (x y p k : Nat) : (mulAfter x y p k).b = y >>> k := by
  induction k with
  | zero => rfl
  | succ k ih => rw [mulAfter, mulPass, ih, ← Nat.shiftRight_add]

theorem bl_mulAfter_b_le (x y p k : Nat) : bl (mulAfter x y p k).b ≤ bl y := by
  rw [mulAfter_b]
  exact bl_mono (Nat.shiftRight_le y k)

/-- The running multiplicand is reduced at every pass (R116). -/
theorem bl_mulAfter_a_lt {x p : Nat} (hx : bl x < bl p) (y k : Nat) : bl (mulAfter x y p k).a < bl p := by
  have hp : p ≠ 0 := by
    rintro rfl
    simp at hx
  cases k with
  | zero => exact hx
  | succ k => exact bl_reduce_lt hp _

/-- The running sum is reduced at every pass (R116). -/
theorem bl_mulAfter_r_lt {x p : Nat} (hx : bl x < bl p) (y k : Nat) : bl (mulAfter x y p k).r < bl p := by
  induction k with
  | zero => exact Nat.zero_lt_of_lt hx
  | succ k ih =>
    rw [mulAfter, mulPass]
    split
    · exact bl_gfadd_lt ih (bl_mulAfter_a_lt hx y k)
    · exact ih

/-- The shifted multiplicand is at most one bit longer than a reduced value. -/
theorem bl_mulAfter_a_shiftLeft_le {x p : Nat} (hx : bl x < bl p) (y k : Nat) :
    bl ((mulAfter x y p k).a <<< 1) ≤ bl p :=
  (bl_shiftLeft_le _ 1).trans (bl_mulAfter_a_lt hx y k)

/-! Numbers that fit (R41, R42). -/

theorem fits_of_bl_le {cfg : Config} {m n : Nat} (hn : cfg.Fits n) (h : bl m ≤ bl n) : cfg.Fits m :=
  (fits_iff cfg m).2 (h.trans ((fits_iff cfg n).1 hn))

/-- Settles O43: inside `reduce` nothing is longer than the value it started from, and inside the adder and the
multiplier nothing is longer than the modulus. -/
theorem intermediatesFitTheWidth : Obligations.IntermediatesFitTheWidth := by
  intro cfg v p x y hv hp hp0 hx hy
  refine ⟨fun q hq => ?_, fits_of_bl_le hp (bl_reduce_lt hp0 v).le, fits_of_bl_le hp (bl_gfadd_lt hx hy).le,
    fun k => ⟨?_, ?_, ?_, ?_⟩⟩
  · obtain ⟨hshift, hval⟩ := bl_of_mem_reduceSteps hp0 v q hq
    exact ⟨fits_of_bl_le hv hshift, fits_of_bl_le hv hval.le⟩
  · exact fits_of_bl_le hp (bl_mulAfter_a_shiftLeft_le hx y k)
  · exact fits_of_bl_le hp (bl_mulAfter_a_lt hx y k).le
  · exact fits_of_bl_le hp ((bl_mulAfter_b_le x y p k).trans hy.le)
  · exact fits_of_bl_le hp (bl_mulAfter_r_lt hx y k).le

/-! Construction by the host (R55, R141). -/

theorem construct_of_fits {cfg : Config} (d : Reg) {value modulus : Nat} (hv : cfg.Fits value)
    (hm : cfg.Fits modulus) :
    construct cfg d value modulus = .ok ⟨fieldWord 1 d 0 0, zext cfg.W value, zext cfg.W modulus⟩ :=
  if_pos ⟨hv, hm⟩

theorem construct_of_wide {cfg : Config} (d : Reg) {value modulus : Nat}
    (h : ¬ (cfg.Fits value ∧ cfg.Fits modulus)) : construct cfg d value modulus = .error .operandTooWide :=
  if_neg h

/-- Settles O52: a number that does not fit is refused, and one that fits is held whole by its data word. -/
theorem theHostRefusesWideOperands : Obligations.TheHostRefusesWideOperands := by
  intro cfg d value modulus
  refine ⟨fun hwide => construct_of_wide d ?_, fun hv hm => ?_⟩
  · rintro ⟨hv, hm⟩
    rcases hwide with h | h
    · exact absurd hv (not_lt.2 h)
    · exact absurd hm (not_lt.2 h)
  · exact ⟨zext cfg.W value, zext cfg.W modulus, toNat_zext ((fits_iff cfg value).1 hv),
      toNat_zext ((fits_iff cfg modulus).1 hm), construct_of_fits d hv hm⟩

end Sys2Proof.Machine
end

section
/-! PROOFS. The family 30_encoding.md: the decoder and the encoder are inverse to each other (R68), and only GFNEW reads
the data words (R62). -/

namespace Sys2Proof.Machine

/-! The decoder and the encoder on the four fields of a word (R60, R68). -/

theorem decode_fieldWord {W : Nat} (op : Fin 16) (rd ra rb : Reg) (dv dm : Word W) :
    decode ⟨fieldWord op rd ra rb, dv, dm⟩ =
      if op = 1 ∧ ra = 0 ∧ rb = 0 then some (.gfnew rd dv.toNat dm.toNat)
      else if op = 2 then some (.gfadd rd ra rb)
      else if op = 3 then some (.gfsub rd ra rb)
      else if op = 4 then some (.gfmul rd ra rb)
      else if op = 5 ∧ rd = 0 then some (.gfeq ra rb)
      else if op = 6 ∧ rd = 0 ∧ rb = 0 then some (.gfrd ra)
      else none := by
  simp only [decode, fieldWord_op, fieldWord_rd, fieldWord_ra, fieldWord_rb]

/-- The family `WordFields`, for all instructions at once. -/
theorem encode_cw (i : Instr) : Laws.WordFields.Statement i := by
  cases i with
  | gfnew d dv dm => exact Laws.WordFields.gfnew d dv dm
  | gfadd d a b => exact Laws.WordFields.gfadd d a b
  | gfsub d a b => exact Laws.WordFields.gfsub d a b
  | gfmul d a b => exact Laws.WordFields.gfmul d a b
  | gfeq a b => exact Laws.WordFields.gfeq a b
  | gfrd a => exact Laws.WordFields.gfrd a

/-! The round trips (R68). -/

theorem decode_encode {cfg : Config} {i : Instr} (h : i.wellFormed cfg = true) : decode (encode cfg.W i) = some i := by
  cases i with
  | gfnew d dv dm =>
    obtain ⟨hv, hm⟩ := (wellFormed_gfnew_iff cfg d dv dm).1 h
    have hdecode := decode_fieldWord 1 d 0 0 (zext cfg.W dv) (zext cfg.W dm)
    rwa [toNat_zext ((bl_le_iff _ _).2 hv), toNat_zext ((bl_le_iff _ _).2 hm)] at hdecode
  | gfadd d a b => exact decode_fieldWord 2 d a b 0 0
  | gfsub d a b => exact decode_fieldWord 3 d a b 0 0
  | gfmul d a b => exact decode_fieldWord 4 d a b 0 0
  | gfeq a b => exact decode_fieldWord 5 0 a b 0 0
  | gfrd a => exact decode_fieldWord 6 0 a 0 0 0

/-- The encoder gives a legal word back: the fields that the decoder drops are those it has tested. -/
theorem encode_cw_of_decode {W : Nat} {c : Command W} {i : Instr} (h : decode c = some i) : (encode W i).cw = c.cw := by
  rw [encode_cw i W, ← fieldWord_fields c.cw]
  rw [decode] at h
  split_ifs at h with hnew hadd hsub hmul heq hread <;> cases h
  · obtain ⟨hop, hra, hrb⟩ := hnew
    rw [hop, hra, hrb]
    rfl
  · rw [hadd]
    rfl
  · rw [hsub]
    rfl
  · rw [hmul]
    rfl
  · obtain ⟨hop, hrd⟩ := heq
    rw [hop, hrd]
    rfl
  · obtain ⟨hop, hrd, hrb⟩ := hread
    rw [hop, hrd, hrb]
    rfl

/-- The encoder gives a GFNEW command back whole, its data words included. -/
theorem encode_gfnew_of_decode {W : Nat} {c : Command W} {d : Reg} {v p : Nat} (h : decode c = some (.gfnew d v p)) :
    encode W (.gfnew d v p) = c := by
  have hcw := encode_cw_of_decode h
  obtain ⟨rfl, rfl⟩ := decode_gfnew h
  obtain ⟨cw, dv, dm⟩ := c
  rw [encode, zext_toNat, zext_toNat]
  exact congrArg (Command.mk · dv dm) hcw

/-- Settles O2: both functions are read off on the fields of a word, and a word is its fields. -/
theorem decodeAndEncodeAreInverse : Obligations.DecodeAndEncodeAreInverse := fun _ =>
  ⟨decode_fieldWord, fun _ _ _ _ _ => ⟨rfl, rfl, rfl, rfl, rfl, rfl⟩, fun _ => decode_encode,
    fun _ _ => encode_cw_of_decode, fun _ _ _ _ => encode_gfnew_of_decode⟩

/-! The data words (R62). -/

/-- The bits 15:12 of R60 select GFNEW's operation code. -/
theorem op_eq_one_iff (w : CommandWord) : w.op = 1 ↔ w.extractLsb' 12 4 = 1#4 := by
  rw [Fin.ext_iff, op_eq_bits, ← BitVec.toNat_inj]
  rfl

/-- The decoder looks at the data words only where the operation code is GFNEW's. -/
theorem decode_dataWords_indep {W : Nat} {w : CommandWord} (h : w.op ≠ 1) (dv dm dv' dm' : Word W) :
    decode ⟨w, dv, dm⟩ = decode ⟨w, dv', dm'⟩ := by
  simp only [decode, h, false_and, if_false]

/-- A command acts through what it decodes to. -/
theorem runCommand_congr {s : State} {c c' : Command s.cfg.W} (h : decode c = decode c') :
    runCommand s c = runCommand s c' := by
  simp only [runCommand, h]

/-- Settles O4: both steps run their command on the same state, and both commands decode to the same. -/
theorem dataWordsAreReadByGfnewOnly : Obligations.DataWordsAreReadByGfnewOnly := by
  intro s w rest dv dm dv' dm' ready hop
  have hissue (c : Command s.cfg.W) : step (s.withScript (.issue c :: rest)) = runCommand (s.withScript rest) c :=
    step_issue rfl ready
  have hdecode : decode ⟨w, dv, dm⟩ = decode ⟨w, dv', dm'⟩ :=
    decode_dataWords_indep (mt (op_eq_one_iff w).1 hop) dv dm dv' dm'
  calc step (s.withScript (.issue ⟨w, dv, dm⟩ :: rest))
    _ = runCommand (s.withScript rest) ⟨w, dv, dm⟩ := hissue _
    _ = runCommand (s.withScript rest) ⟨w, dv', dm'⟩ := runCommand_congr hdecode
    _ = step (s.withScript (.issue ⟨w, dv', dm'⟩ :: rest)) := (hissue _).symm

end Sys2Proof.Machine
end

section
/-! PROOFS. The family 40_construction_reduction.md: `reduce` is the division with remainder of polynomials over GF(2)
(R83 to R85, R90), and GFNEW constructs the reduced element (R87). -/

namespace Sys2Proof.Machine

/-! Terms of a polynomial (R10, R120). -/

/-- Induction over the terms of a polynomial, lowest first: each new term is above all the others. -/
theorem leading_term_induction {P : Nat → Prop} (zero : P 0) (term : ∀ k n, bl n ≤ k → P n → P (2 ^ k ^^^ n))
    (n : Nat) : P n := by
  induction hb : bl n using Nat.strong_induction_on generalizing n with
  | _ m ih =>
    subst hb
    by_cases h : n = 0
    · exact h ▸ zero
    · obtain ⟨hlt, heq⟩ := leading_bit_split h
      rw [heq]
      exact term _ _ (Nat.le_sub_one_of_lt hlt) (ih _ hlt _ rfl)

theorem ne_zero_of_bl_lt {x y : Nat} (h : bl x < bl y) : y ≠ 0 := by
  rintro rfl
  simp at h

/-- A shorter number does not reach the leading bit. -/
theorem bl_xor_of_lt {x y : Nat} (h : bl y < bl x) : bl (x ^^^ y) = bl x := by
  apply le_antisymm
  · exact (bl_xor_le x y).trans_eq (max_eq_left h.le)
  · have hx : bl x ≤ max (bl (x ^^^ y)) (bl y) := by
      simpa only [Nat.xor_xor_cancel_right] using bl_xor_le (x ^^^ y) y
    exact (le_max_iff.1 hx).resolve_right (not_le.2 h)

theorem bl_leading_term {k n : Nat} (h : bl n ≤ k) : bl (2 ^ k ^^^ n) = k + 1 := by
  rw [bl_xor_of_lt, bl_two_pow]
  rw [bl_two_pow]
  exact Nat.lt_succ_of_le h

/-- A product with one more term is the shifted factor added to the product without it. -/
theorem clmul_leading_term (k x y : Nat) : clmul (2 ^ k ^^^ x) y = y <<< k ^^^ clmul x y := by
  rw [clmul_xor_left, two_pow_clmul]

/-- The degrees of a carry-less product add up (R120). -/
theorem bl_clmul {x y : Nat} (hx : x ≠ 0) (hy : y ≠ 0) : bl (clmul x y) = bl x + bl y - 1 := by
  induction x using leading_term_induction with
  | zero => exact absurd rfl hx
  | term k n hn ih =>
    have hypos : 0 < bl y := bl_pos hy
    have hshort : bl (clmul n y) < bl (y <<< k) := by
      rw [bl_shiftLeft hy]
      by_cases h0 : n = 0
      · rw [h0, zero_clmul, bl_zero]
        omega
      · rw [ih h0]
        omega
    rw [clmul_leading_term, bl_xor_of_lt hshort, bl_shiftLeft hy, bl_leading_term hn]
    omega

/-! The number of 1 bits (R84, R90). -/

/-- Bits above the number's length are no 1 bits. -/
theorem ones_of_bl_le {n m : Nat} (h : bl n ≤ m) : ones n = (List.range m).countP (n.testBit ·) := by
  induction m, h using Nat.le_induction with
  | base => exact List.countP_eq_length_filter.symm
  | succ m hm ih => simp [List.range_succ, testBit_of_bl_le hm, ih]

@[simp] theorem ones_zero : ones 0 = 0 := rfl

theorem ones_le_bl (n : Nat) : ones n ≤ bl n := by
  have h := List.length_filter_le (fun i => n.testBit i) (List.range (bl n))
  rwa [List.length_range] at h

theorem ones_leading_term {k n : Nat} (h : bl n ≤ k) : ones (2 ^ k ^^^ n) = ones n + 1 := by
  have hlow : ∀ i ∈ List.range k, (2 ^ k ^^^ n).testBit i = true ↔ n.testBit i = true := by
    intro i hi
    have hne : k ≠ i := Nat.ne_of_gt (List.mem_range.1 hi)
    simp [hne]
  have htop : n.testBit k = false := testBit_of_bl_le h
  rw [ones_of_bl_le (bl_leading_term h).le, ones_of_bl_le h, List.range_succ, List.countP_append,
    List.countP_congr hlow]
  simp [htop]

/-! The passes of the reduction (R82 to R84). -/

/-- A pass changes the value by the aligned modulus. -/
theorem xor_reducePass (v p : Nat) : v ^^^ reducePass v p = p <<< (bl v - bl p) := Nat.xor_xor_cancel_left ..

theorem reduceSteps_of_lt {v p : Nat} (h : bl v < bl p) : reduceSteps v p = [] := by
  rw [reduceSteps_eq (ne_zero_of_bl_lt h), if_neg (not_le.2 h)]

section
variable {p : Nat} (hp : p ≠ 0) {v : Nat}
include hp

theorem reduce_of_le (h : bl p ≤ bl v) : reduce v p = reduce (reducePass v p) p := by
  rw [reduce_eq hp, if_pos h]

theorem reduceSteps_of_le (h : bl p ≤ bl v) :
    reduceSteps v p = (bl v - bl p, reducePass v p) :: reduceSteps (reducePass v p) p := by
  rw [reduceSteps_eq hp, if_pos h]

/-- Where the first pass leaves a reduced value, it is the only one. -/
theorem reduce_one_pass (h : bl p ≤ bl v) (hpass : bl (reducePass v p) < bl p) :
    reduce v p = reducePass v p ∧ (reduceSteps v p).length = 1 := by
  rw [reduce_of_le hp h, reduce_of_lt hpass, reduceSteps_of_le hp h, reduceSteps_of_lt hpass]
  exact ⟨rfl, rfl⟩

end

/-- What R83 says of one pass, between the value before it and the shift and value after it. -/
def IsPass (p : Nat) (before after : Nat × Nat) : Prop :=
  after.1 = bl before.2 - bl p ∧ bl p ≤ bl before.2 ∧ after.2 = before.2 ^^^ (p <<< after.1) ∧
    bl after.2 < bl before.2

theorem isPass_reducePass {v p : Nat} (hp : p ≠ 0) (h : bl p ≤ bl v) (s : Nat) :
    IsPass p (s, v) (bl v - bl p, reducePass v p) :=
  ⟨rfl, h, rfl, bl_reducePass_lt hp h⟩

theorem reduceSteps_isChain {p : Nat} (hp : p ≠ 0) (v s : Nat) :
    List.IsChain (IsPass p) ((s, v) :: reduceSteps v p) := by
  induction v using reduce_induction hp generalizing s with
  | done v h =>
    rw [reduceSteps_of_lt h]
    exact .singleton _
  | pass v h ih =>
    rw [reduceSteps_of_le hp h]
    exact .cons_cons (isPass_reducePass hp h s) (ih _)

/-- The value after the last pass, or at the start where there is none, is the result. -/
theorem reduce_eq_getLast {p : Nat} (hp : p ≠ 0) (v s : Nat) :
    reduce v p = (((s, v) :: reduceSteps v p).getLast (List.cons_ne_nil _ _)).2 := by
  induction v using reduce_induction hp generalizing s with
  | done v h => simp only [reduceSteps_of_lt h, reduce_of_lt h, List.getLast_singleton]
  | pass v h ih =>
    simp only [reduceSteps_of_le hp h, reduce_of_le hp h, List.getLast_cons_cons]
    exact ih _

/-! Division with remainder (R84, R85). -/

/-- The quotient of the long division: one term for each pass, the terms descending. -/
theorem exists_quotient {p : Nat} (hp : p ≠ 0) (v : Nat) :
    ∃ q, v ^^^ reduce v p = clmul q p ∧ bl q ≤ bl v + 1 - bl p ∧ ones q = (reduceSteps v p).length := by
  induction v using reduce_induction hp with
  | done v h =>
    refine ⟨0, ?_, Nat.zero_le _, ?_⟩
    · rw [reduce_of_lt h, Nat.xor_self, zero_clmul]
    · rw [reduceSteps_of_lt h, ones_zero, List.length_nil]
  | pass v h ih =>
    obtain ⟨q, hq, hbl, hones⟩ := ih
    have hlt : bl (reducePass v p) < bl v := bl_reducePass_lt hp h
    have hshort : bl q ≤ bl v - bl p := by omega
    refine ⟨2 ^ (bl v - bl p) ^^^ q, ?_, ?_, ?_⟩
    · rw [clmul_leading_term, ← hq, ← xor_reducePass, reduce_of_le hp h, Nat.xor_assoc, Nat.xor_xor_cancel_left]
    · rw [bl_leading_term hshort]
      omega
    · rw [ones_leading_term hshort, hones, reduceSteps_of_le hp h, List.length_cons]

/-- Two reduced numbers that differ by a multiple of the modulus are one: a multiple that is not 0 is too long. -/
theorem eq_of_xor_eq_clmul {p r r' q : Nat} (hr : bl r < bl p) (hr' : bl r' < bl p) (h : r ^^^ r' = clmul q p) :
    r = r' := by
  by_cases hq : q = 0
  · rwa [hq, zero_clmul, Nat.xor_eq_zero_iff] at h
  · have hp : p ≠ 0 := ne_zero_of_bl_lt hr
    have hlen : bl (clmul q p) < bl p := h ▸ (bl_xor_le r r').trans_lt (max_lt hr hr')
    have hqpos : 0 < bl q := bl_pos hq
    rw [bl_clmul hq hp] at hlen
    omega

/-- The remainder is unique (R85 (c)). -/
theorem reduce_eq_of_xor_eq_clmul {v p r q : Nat} (hr : bl r < bl p) (h : v ^^^ r = clmul q p) : reduce v p = r := by
  have hp : p ≠ 0 := ne_zero_of_bl_lt hr
  obtain ⟨q', hq', -⟩ := exists_quotient hp v
  apply eq_of_xor_eq_clmul (bl_reduce_lt hp v) hr (q := q' ^^^ q)
  calc reduce v p ^^^ r
    _ = (v ^^^ reduce v p) ^^^ (v ^^^ r) := by
      rw [Nat.xor_comm v, Nat.xor_assoc, Nat.xor_xor_cancel_left]
    _ = clmul (q' ^^^ q) p := by rw [hq', h, clmul_xor_left]

/-- A multiple of the modulus leaves no remainder. -/
theorem reduce_clmul {p : Nat} (hp : p ≠ 0) (q : Nat) : reduce (clmul q p) p = 0 :=
  reduce_eq_of_xor_eq_clmul (bl_pos hp) (Nat.xor_zero _)

theorem reduce_xor {p : Nat} (hp : p ≠ 0) (u v : Nat) : reduce (u ^^^ v) p = reduce u p ^^^ reduce v p := by
  obtain ⟨q, hq, -⟩ := exists_quotient hp u
  obtain ⟨q', hq', -⟩ := exists_quotient hp v
  apply reduce_eq_of_xor_eq_clmul (q := q ^^^ q') (bl_gfadd_lt (bl_reduce_lt hp u) (bl_reduce_lt hp v))
  rw [clmul_xor_left, ← hq, ← hq']
  ac_rfl

theorem reduce_eq_self_iff {p : Nat} (hp : p ≠ 0) (v : Nat) : reduce v p = v ↔ bl v < bl p :=
  ⟨fun h => h ▸ bl_reduce_lt hp v, reduce_of_lt⟩

theorem reduce_reduce {p : Nat} (hp : p ≠ 0) (v : Nat) : reduce (reduce v p) p = reduce v p :=
  reduce_of_lt (bl_reduce_lt hp v)

theorem reduce_lt_two_pow {p : Nat} (hp : p ≠ 0) (v : Nat) : reduce v p < 2 ^ (bl p - 1) :=
  (bl_le_iff _ _).1 (Nat.le_sub_one_of_lt (bl_reduce_lt hp v))

/-! Corner cases (R90). -/

theorem reducePass_of_bl_eq {v p : Nat} (h : bl v = bl p) : reducePass v p = v ^^^ p := by
  rw [reducePass, h, Nat.sub_self, Nat.shiftLeft_zero]

theorem reducePass_shiftLeft {p : Nat} (hp : p ≠ 0) (k : Nat) : reducePass (p <<< k) p = 0 := by
  rw [reducePass, bl_shiftLeft hp, Nat.add_sub_cancel_left, Nat.xor_self]

theorem reduce_of_bl_eq {v p : Nat} (hp : p ≠ 0) (h : bl v = bl p) :
    reduce v p = v ^^^ p ∧ (reduceSteps v p).length = 1 := by
  have hlt : bl (reducePass v p) < bl p := h ▸ bl_reducePass_lt hp h.ge
  rw [← reducePass_of_bl_eq h]
  exact reduce_one_pass hp h.ge hlt

theorem reduce_shiftLeft {p : Nat} (hp : p ≠ 0) (k : Nat) :
    reduce (p <<< k) p = 0 ∧ (reduceSteps (p <<< k) p).length = 1 := by
  have hle : bl p ≤ bl (p <<< k) := by
    rw [bl_shiftLeft hp]
    exact Nat.le_add_right _ _
  rw [← reducePass_shiftLeft hp k]
  apply reduce_one_pass hp hle
  rw [reducePass_shiftLeft hp]
  exact bl_pos hp

/-- A number is its low `k` bits and the rest. -/
theorem xor_mod_two_pow (v k : Nat) : v ^^^ v % 2 ^ k = v >>> k <<< k := by
  apply Nat.eq_of_testBit_eq
  intro i
  by_cases h : i < k
  · simp [Nat.testBit_mod_two_pow, h, Nat.not_le.2 h]
  · simp [Nat.testBit_mod_two_pow, h, Nat.not_lt.1 h]

theorem reduce_two_pow (v k : Nat) : reduce v (2 ^ k) = v % 2 ^ k := by
  apply reduce_eq_of_xor_eq_clmul (q := v >>> k)
  · rw [bl_two_pow, Nat.lt_succ_iff, bl_le_iff]
    exact Nat.mod_lt v (Nat.two_pow_pos k)
  · rw [clmul_two_pow, xor_mod_two_pow]

/-- The quotient by `x^k` is the number without its low `k` bits. -/
theorem length_reduceSteps_two_pow (v k : Nat) : (reduceSteps v (2 ^ k)).length = ones (v >>> k) := by
  obtain ⟨q, hq, -, hones⟩ := exists_quotient (Nat.two_pow_pos k).ne' v
  have hshift : v >>> k <<< k = q <<< k := by rw [← xor_mod_two_pow, ← reduce_two_pow, hq, clmul_two_pow]
  rw [← hones, ← Nat.shiftLeft_shiftRight q k, ← hshift, Nat.shiftLeft_shiftRight]

/-- Settles O13: the long division's quotient and the degrees of its multiples make the remainder the only one, and the
identities follow from that. -/
theorem reduceReturnsTheCanonicalRemainder : Obligations.ReduceReturnsTheCanonicalRemainder := by
  intro p hp
  refine ⟨fun v => ?_, fun v r q hr h => (reduce_eq_of_xor_eq_clmul hr h).symm, reduce_eq_self_iff hp,
    reduce_reduce hp, reduce_of_lt (bl_pos hp), (reduce_shiftLeft hp 0).1, reduce_clmul hp, reduce_xor hp⟩
  obtain ⟨q, hq, -⟩ := exists_quotient hp v
  exact ⟨bl_reduce_lt hp v, reduce_lt_two_pow hp v, q, hq⟩

/-- Settles O14: the quotient has one 1 bit for each pass, so its length bounds their number. -/
theorem reductionPassesShrinkTheValueAndAreBounded : Obligations.ReductionPassesShrinkTheValueAndAreBounded := by
  intro v p hp
  obtain ⟨q, hq, hbl, hones⟩ := exists_quotient hp v
  have hbound : (reduceSteps v p).length ≤ bl v + 1 - bl p := hones ▸ (ones_le_bl q).trans hbl
  have hpos : 0 < bl p := bl_pos hp
  refine ⟨reduceSteps_isChain hp v 0, reduce_eq_getLast hp v 0, fun h => ?_, fun h => ⟨?_, ?_⟩, ?_, q, hq, hones⟩
  · rw [reduceSteps_of_lt h, List.length_nil]
  · rw [reduceSteps_of_le hp h, List.length_cons]
    exact Nat.succ_pos _
  · omega
  · omega

/-- Settles O15: at most one pass in the first rows; the moduli 1 and 2 are the powers `2^0` and `2^1`. -/
theorem reductionCornerCases : Obligations.ReductionCornerCases := by
  intro v p k hp
  have hreduced {u : Nat} (h : bl u < bl p) : reduce u p = u ∧ (reduceSteps u p).length = 0 :=
    ⟨reduce_of_lt h, by rw [reduceSteps_of_lt h, List.length_nil]⟩
  refine ⟨hreduced (bl_pos hp), hreduced, reduce_of_bl_eq hp, reduce_shiftLeft hp k, ⟨?_, ?_⟩,
    ⟨reduce_two_pow v 1, length_reduceSteps_two_pow v 1⟩, ⟨reduce_two_pow v k, length_reduceSteps_two_pow v k⟩⟩
  · exact (reduce_two_pow v 0).trans (Nat.mod_one v)
  · exact length_reduceSteps_two_pow v 0

/-! GFNEW (R87): its line of assembler text, and its outcomes. -/

/-- Text that the tokenizer reads as one word. -/
def IsWord (cs : List Char) : Prop := cs ≠ [] ∧ ∀ c ∈ cs, IsWordChar c

theorem isWord_registerName (r : Reg) : IsWord (registerName r) :=
  ⟨registerName_ne_nil r, isWordChar_registerName r⟩

theorem isWord_of_parseNumber {cs : List Char} {n : Nat} (h : parseNumber cs = some n) : IsWord cs :=
  isWordChar_of_parseNumber h

theorem isWord_of_lowercase {cs : List Char} (ne : cs ≠ []) (h : ∀ c ∈ cs, 97 ≤ c.toNat ∧ c.toNat ≤ 122) :
    IsWord cs :=
  ⟨ne, fun c hc => isWordChar_of_alphanumeric (.inr (.inr (h c hc)))⟩

theorem tokens_isWord {cs : List Char} (h : IsWord cs) : tokens .plain cs = some [.word cs] := by
  simpa using tokens_word h.1 h.2 []

/-- A line of three operands that are words is read as its mnemonic and its operands (R69). -/
theorem assemble_three (cfg : Config) {mn a b c : List Char} (hmn : IsWord mn) (ha : IsWord a) (hb : IsWord b)
    (hc : IsWord c) : assemble cfg (asmLine mn [a, b, c]) = parseThree cfg mn a b c := by
  have htokens : tokens .plain (asmLine mn [a, b, c]) =
      some [.word mn, .word a, .comma, .word b, .comma, .word c] := by
    have hline : asmLine mn [a, b, c] = mn ++ ' ' :: (a ++ ',' :: ' ' :: (b ++ ',' :: ' ' :: c)) := by
      simp [asmLine, List.intercalate]
    simp [hline, tokens_word hmn.1 hmn.2, tokens_word ha.1 ha.2, tokens_word hb.1 hb.2, tokens_isWord hc]
  rw [assemble, htokens]
  rfl

theorem assemble_gfnew {cfg : Config} (d : Reg) {value modulus : List Char} {v p : Word cfg.W}
    (hv : parseNumber value = some v.toNat) (hp : parseNumber modulus = some p.toNat) :
    assemble cfg (asmLine "gfnew".toList [registerName d, value, modulus]) = .ok (some ⟨fieldWord 1 d 0 0, v, p⟩) := by
  have hmn : IsWord "gfnew".toList := isWord_of_lowercase (by decide) (by simp)
  rw [assemble_three cfg hmn (isWord_registerName d) (isWord_of_parseNumber hv) (isWord_of_parseNumber hp)]
  have hcommand : construct cfg d v.toNat p.toNat = .ok ⟨fieldWord 1 d 0 0, v, p⟩ := by
    rw [construct_of_fits d v.isLt p.isLt, zext_toNat, zext_toNat]
  simp [parseThree, hv, hp, hcommand, asmResult]

/-- A word with GFNEW's operation code and a field that must be zero set selects no command (R65). -/
theorem decode_gfnew_mbz {W : Nat} (d : Reg) {a b : Reg} (h : a ≠ 0 ∨ b ≠ 0) (v p : Word W) :
    decode ⟨fieldWord 1 d a b, v, p⟩ = none := by
  have hmbz : ¬ (a = 0 ∧ b = 0) := by tauto
  rw [decode_fieldWord, if_neg (fun hc => hmbz hc.2)]
  rfl

/-- Settles O7: the outcomes are those of GFNEW on the engine, and a reduced value fits the field of its modulus. -/
theorem gfnewConstructsTheReducedElement : Obligations.GfnewConstructsTheReducedElement := by
  intro s d a b v p
  refine ⟨decode_fieldWord 1 d 0 0 v p, fun hp => ?_, fun hp => ?_, fun h => ?_, fun _ _ => assemble_gfnew d⟩
  · have hp0 : p.toNat ≠ 0 := mt (toNat_eq_zero_iff p).1 hp
    refine ⟨bl_reduce_lt hp0 _, zext s.cfg.W (reduce v.toNat p.toNat), toNat_zext_reduce hp0 _, ?_⟩
    rw [exec, execGfnew_toNat, gfnewOn_of_ne d v hp0]
    rfl
  · rw [exec, execGfnew_toNat, gfnewOn_of_eq d v ((toNat_eq_zero_iff p).2 hp)]
    rfl
  · rw [runCommand_of_illegal (decode_gfnew_mbz d h v p)]
    rfl

end Sys2Proof.Machine
end

section
/-! PROOFS. The family 41_compat_addsub.md: the commands of the XOR adder, GFADD and GFSUB (R103, R104), and the laws of
addition (R105). -/

namespace Sys2Proof.Machine

/-! The lines of format R (R69). -/

theorem isWord_of_parseFormatR {mn : List Char} {d a b : Reg} {i : Instr} (h : parseFormatR mn d a b = some i) :
    IsWord mn := by
  rw [parseFormatR] at h
  split_ifs at h with hmn hmn hmn <;> subst hmn <;> exact isWord_of_lowercase (List.cons_ne_nil _ _) (by simp)

/-- A line of format R gives the command of the instruction its mnemonic selects. -/
theorem assemble_formatR (cfg : Config) {mn : List Char} {d a b : Reg} {i : Instr}
    (h : parseFormatR mn d a b = some i) :
    assemble cfg (asmLine mn [registerName d, registerName a, registerName b]) = .ok (some (encode cfg.W i)) := by
  have hnew : mn ≠ ['g', 'f', 'n', 'e', 'w'] := by
    rintro rfl
    simp [parseFormatR] at h
  rw [assemble_three cfg (isWord_of_parseFormatR h) (isWord_registerName d) (isWord_registerName a)
    (isWord_registerName b)]
  simp [parseThree, hnew, h, asmPlain, asmResult]

/-! The adder on an engine (R102, R103). -/

/-- A combination by a symmetric function does not depend on the order of its sources, and neither do its errors. -/
theorem combine_comm {W : Nat} {f : Nat → Nat → Nat → Nat} (hf : ∀ x y p, f x y p = f y x p) (d a b : Reg)
    (E : Engine W) : combine f d a b E = combine f d b a E := by
  obtain ⟨h, hempty⟩ | ⟨x, y, ha, hb, hm, h⟩ | ⟨x, y, ha, hb, hm, h⟩ := combine_cases f d a b E
  · rw [h, combine_of_empty f d hempty.symm]
  · rw [h, combine_of_mismatch f d hb ha hm.symm]
  · rw [h, combine_of_compat f d hb ha hm.symm, hf, hm]

theorem gfaddOn_comm {W : Nat} (d a b : Reg) (E : Engine W) : gfaddOn d a b E = gfaddOn d b a E :=
  combine_comm (fun x y _ => Nat.xor_comm x y) d a b E

section
variable {W : Nat} {E : Engine W} {a b : Reg} {p x y : Word W}

theorem gfaddOn_of_valid (d : Reg) (ha : E.read a = some ⟨p, x⟩) (hb : E.read b = some ⟨p, y⟩) :
    gfaddOn d a b E = complete d ⟨p, x ^^^ y⟩ E := by
  rw [gfaddOn, combine_of_compat _ d ha hb rfl, gfadd, zext_xor]

/-- Adding `b` twice gives `a` back, when the first sum does not overwrite `b`; the destination may be `a` itself. -/
theorem gfaddOn_gfaddOn_cancel {d : Reg} (ha : E.read a = some ⟨p, x⟩) (hb : E.read b = some ⟨p, y⟩) (hdb : d ≠ b) :
    (gfaddOn d d b (gfaddOn d a b E).1).1 = (E.write d ⟨p, x ^^^ y⟩).write d ⟨p, x⟩ := by
  have hsum : (gfaddOn d a b E).1 = E.write d ⟨p, x ^^^ y⟩ := congrArg Prod.fst (gfaddOn_of_valid d ha hb)
  have hb' : (E.write d ⟨p, x ^^^ y⟩).read b = some ⟨p, y⟩ := by rw [Engine.read_write_of_ne E _ hdb, hb]
  rw [hsum, gfaddOn_of_valid d (Engine.read_write_self E d _) hb', BitVec.xor_assoc, BitVec.xor_self, BitVec.xor_zero]
  rfl

theorem gfeqOn_gfaddOn_gfaddOn {d : Reg} (ha : E.read a = some ⟨p, x⟩) (hb : E.read b = some ⟨p, y⟩) (hda : d ≠ a)
    (hdb : d ≠ b) : (gfeqOn d a (gfaddOn d d b (gfaddOn d a b E).1).1).2 = .ofEq true := by
  have ha' : ((E.write d ⟨p, x ^^^ y⟩).write d ⟨p, x⟩).read a = some ⟨p, x⟩ := by
    rw [Engine.read_write_of_ne _ _ hda, Engine.read_write_of_ne _ _ hda, ha]
  rw [gfaddOn_gfaddOn_cancel ha hb hdb, gfeqOn_of_valid (Engine.read_write_self _ d _) ha']
  simp [eqBit]

end

/-! The adder's commands (R103, R104). -/

theorem exec_gfadd (d a b : Reg) (s : State) :
    exec (.gfadd d a b) s = .next (s.perform (gfaddOn d a b s.engine)) := rfl

theorem exec_gfadd_of_valid {s : State} {a b : Reg} {p x y : Word s.cfg.W} (d : Reg)
    (ha : s.readReg a = some ⟨p, x⟩) (hb : s.readReg b = some ⟨p, y⟩) :
    exec (.gfadd d a b) s =
      .next { s with engine := ⟨s.engine.regs.set d (some ⟨p, x ^^^ y⟩)⟩, rsp := some ⟨.ok, false, x ^^^ y, p⟩ } := by
  rw [exec_gfadd, gfaddOn_of_valid d ha hb]
  rfl

/-- GFSUB is GFADD under another operation code: the adder is its own inverse (R104). -/
theorem exec_gfsub (d a b : Reg) (s : State) : exec (.gfsub d a b) s = exec (.gfadd d a b) s := rfl

/-- Settles O8: the word is read off on its fields, and the outcomes are those of a combination on the engine. -/
theorem gfaddAddsTwoElements : Obligations.GfaddAddsTwoElements := by
  intro s d a b dv dm
  refine ⟨decode_fieldWord 2 d a b dv dm, fun cfg => ?_, fun p x y => exec_gfadd_of_valid d, fun hempty => ?_,
    fun p q x y ha hb hpq => ?_⟩
  · rw [assemble_formatR cfg (i := .gfadd d a b) rfl]
    rfl
  · rw [exec_gfadd, gfaddOn, combine_of_empty _ d hempty]
    rfl
  · rw [exec_gfadd, gfaddOn, combine_of_mismatch _ d ha hb hpq]
    rfl

/-- Settles O9: the outcomes are those of GFADD (O8). -/
theorem gfsubSubtractsTwoElements : Obligations.GfsubSubtractsTwoElements := by
  intro s d a b dv dm
  obtain ⟨-, -, hsum, hempty, hmismatch⟩ := gfaddAddsTwoElements s d a b dv dm
  rw [exec_gfsub]
  refine ⟨decode_fieldWord 3 d a b dv dm, fun cfg => ?_, hsum, hempty, hmismatch, rfl⟩
  rw [assemble_formatR cfg (i := .gfsub d a b) rfl]
  rfl

/-- Settles O20: the laws are those of the XOR of the values, and the errors do not depend on the order of the
sources. -/
theorem additionLaws : Obligations.AdditionLaws := by
  refine ⟨fun s d a b p x y ha hb hda hdb => ?_, fun s d a p x ha => ?_, fun s d a b => ?_,
    fun s d a b p x ha hb => ?_, Nat.xor_assoc⟩
  · exact ⟨_, _, _, rfl, rfl, rfl, congrArg some (gfeqOn_gfaddOn_gfaddOn ha hb hda hdb)⟩
  · rw [exec_gfadd_of_valid d ha ha, BitVec.xor_self]
    rfl
  · rw [exec_gfadd, exec_gfadd, gfaddOn_comm]
  · rw [exec_gfadd_of_valid d ha hb]
    simp only [BitVec.ofNat_eq_ofNat, BitVec.xor_zero]

end Sys2Proof.Machine
end

section
/-! PROOFS. The family 42_multiply.md: what the multiplier's loop keeps and how often it runs (R116, R117, R119), its
result as the reduced carry-less product with the laws that gives (R120, R121), and GFMUL (R118). -/

namespace Sys2Proof.Machine

/-! One shift of a reduced value (R116). -/

theorem bl_shiftRight (n s : Nat) : bl (n >>> s) = bl n - s := by
  apply eq_of_forall_ge_iff
  intro k
  rw [Nat.sub_le_iff_le_add, bl_le_iff, bl_le_iff, Nat.shiftRight_eq_div_pow, Nat.div_lt_iff_lt_mul (Nat.two_pow_pos s),
    pow_add]

/-- The shifted value reaches the length of the modulus exactly when the top bit of a reduced value is set; under a
modulus of one bit there is no such bit. -/
theorem bl_shiftLeft_one_eq_iff {a p : Nat} (h : bl a < bl p) :
    bl (a <<< 1) = bl p ↔ bl p ≠ 1 ∧ a.testBit (bl p - 2) = true := by
  by_cases ha : a = 0
  · have hpos : bl p ≠ 0 := Nat.ne_zero_of_lt h
    simp [ha, hpos.symm]
  · have hapos : 0 < bl a := bl_pos ha
    rw [bl_shiftLeft ha]
    constructor
    · intro heq
      have htop : bl p - 2 = bl a - 1 := by omega
      exact ⟨by omega, htop ▸ testBit_leading ha⟩
    · rintro ⟨_, hbit⟩
      have hlong : ¬ bl a ≤ bl p - 2 := fun hle => Bool.false_ne_true ((testBit_of_bl_le hle).symm.trans hbit)
      omega

/-- The inner reduction of the loop is one conditional XOR (R116). -/
theorem reduce_shiftLeft_one {a p : Nat} (h : bl a < bl p) :
    reduce (a <<< 1) p = if bl p ≠ 1 ∧ a.testBit (bl p - 2) then a <<< 1 ^^^ p else a <<< 1 := by
  by_cases heq : bl (a <<< 1) = bl p
  · rw [if_pos ((bl_shiftLeft_one_eq_iff h).1 heq)]
    exact (reduce_of_bl_eq (ne_zero_of_bl_lt h) heq).1
  · have hle : bl (a <<< 1) ≤ bl p := (bl_shiftLeft_le a 1).trans h
    rw [if_neg (mt (bl_shiftLeft_one_eq_iff h).2 heq)]
    exact reduce_of_lt (lt_of_le_of_ne hle heq)

/-! Products modulo `p` (R85, R120). -/

section
variable {p : Nat} (hp : p ≠ 0)
include hp

theorem reduce_zero : reduce 0 p = 0 := reduce_of_lt (bl_pos hp)

/-- A factor may be reduced before the product is: what that takes from it is a multiple of the modulus. -/
theorem reduce_clmul_reduce_left (u v : Nat) : reduce (clmul (reduce u p) v) p = reduce (clmul u v) p := by
  obtain ⟨q, hq, -⟩ := exists_quotient hp u
  apply Eq.symm
  rw [← Nat.xor_eq_zero_iff]
  calc reduce (clmul u v) p ^^^ reduce (clmul (reduce u p) v) p
    _ = reduce (clmul (clmul q p) v) p := by rw [← reduce_xor hp, ← clmul_xor_left, hq]
    _ = reduce (clmul (clmul q v) p) p := by rw [clmul_assoc, clmul_comm p, clmul_assoc]
    _ = 0 := reduce_clmul hp _

theorem reduce_clmul_reduce_right (u v : Nat) : reduce (clmul u (reduce v p)) p = reduce (clmul u v) p := by
  rw [clmul_comm, reduce_clmul_reduce_left hp, clmul_comm]

theorem reduce_reduce_shiftLeft_one (u : Nat) : reduce (reduce u p <<< 1) p = reduce (u <<< 1) p := by
  have h := reduce_clmul_reduce_left hp u (2 ^ 1)
  rwa [clmul_two_pow, clmul_two_pow] at h

/-- The XOR of the reduced terms is the reduced XOR of the terms. -/
theorem foldl_reduce_eq_reduce_clmulTo (x y k : Nat) :
    (List.range k).foldl (fun acc i => if y.testBit i then acc ^^^ reduce (x <<< i) p else acc) 0 =
      reduce (clmulTo x y k) p := by
  induction k with
  | zero => exact (reduce_zero hp).symm
  | succ k ih =>
    rw [List.range_succ, List.foldl_append, ih, clmulTo_succ]
    cases hbit : y.testBit k with
    | false => simp [hbit]
    | true => simp [hbit, reduce_xor hp]

/-! The multiplier's locals modulo `p` (R116), for any operands. -/

theorem reduce_mulAfter_a (x y k : Nat) : reduce (mulAfter x y p k).a p = reduce (x <<< k) p := by
  induction k with
  | zero => rfl
  | succ k ih =>
    calc reduce (mulAfter x y p (k + 1)).a p
      _ = reduce ((mulAfter x y p k).a <<< 1) p := reduce_reduce hp _
      _ = reduce (x <<< (k + 1)) p := by
        rw [← reduce_reduce_shiftLeft_one hp, ih, reduce_reduce_shiftLeft_one hp, ← Nat.shiftLeft_add]

theorem reduce_mulAfter_r (x y k : Nat) : reduce (mulAfter x y p k).r p = reduce (clmulTo x y k) p := by
  induction k with
  | zero => rfl
  | succ k ih =>
    have hbit : (mulAfter x y p k).b.testBit 0 = y.testBit k := by
      rw [mulAfter_b, Nat.testBit_shiftRight, Nat.add_zero]
    rw [mulAfter, mulPass, clmulTo_succ, hbit]
    split
    · rw [reduce_xor hp, reduce_xor hp, ih, reduce_mulAfter_a hp]
    · exact ih

/-- The multiplier returns the carry-less product reduced modulo `p` (R120). -/
theorem gfmul_eq_reduce_clmul (x y : Nat) : gfmul x y p = reduce (clmul x y) p := by
  rw [gfmul, mulLoop_eq_mulAfter, reduce_mulAfter_r hp, clmul_eq_clmulTo]

/-! The laws of the product (R121). -/

theorem gfmul_comm (x y : Nat) : gfmul x y p = gfmul y x p := by
  rw [gfmul_eq_reduce_clmul hp, gfmul_eq_reduce_clmul hp, clmul_comm]

theorem gfmul_zero (x : Nat) : gfmul x 0 p = 0 := by
  rw [gfmul_eq_reduce_clmul hp, clmul_zero, reduce_zero hp]

theorem gfmul_assoc (x y z : Nat) : gfmul (gfmul x y p) z p = gfmul x (gfmul y z p) p := by
  simp only [gfmul_eq_reduce_clmul hp]
  rw [reduce_clmul_reduce_left hp, reduce_clmul_reduce_right hp, clmul_assoc]

theorem gfmul_gfadd (x y z : Nat) : gfmul x (gfadd y z) p = gfadd (gfmul x y p) (gfmul x z p) := by
  simp only [gfmul_eq_reduce_clmul hp, gfadd]
  rw [clmul_xor_right, reduce_xor hp]

end

theorem gfmul_one {x p : Nat} (hx : bl x < bl p) : gfmul x 1 p = x := by
  have hone : clmul x 1 = x := clmul_two_pow x 0
  rw [gfmul_eq_reduce_clmul (ne_zero_of_bl_lt hx), hone, reduce_of_lt hx]

/-! The locals themselves, for reduced operands (R116, R119). -/

section
variable {x p : Nat} (hx : bl x < bl p) (y k : Nat)
include hx

theorem mulAfter_a : (mulAfter x y p k).a = reduce (x <<< k) p := by
  rw [← reduce_mulAfter_a (ne_zero_of_bl_lt hx) x y, reduce_of_lt (bl_mulAfter_a_lt hx y k)]

/-- The final reduction is a no-op at every pass (R119). -/
theorem reduce_mulAfter_r_self : reduce (mulAfter x y p k).r p = (mulAfter x y p k).r :=
  reduce_of_lt (bl_mulAfter_r_lt hx y k)

theorem mulAfter_r : (mulAfter x y p k).r =
    (List.range k).foldl (fun acc i => if y.testBit i then acc ^^^ reduce (x <<< i) p else acc) 0 := by
  have hp : p ≠ 0 := ne_zero_of_bl_lt hx
  rw [foldl_reduce_eq_reduce_clmulTo hp, ← reduce_mulAfter_r hp, reduce_mulAfter_r_self hx]

theorem gfmul_eq_mulAfter_r : gfmul x y p = (mulAfter x y p (bl y)).r := by
  rw [gfmul, mulLoop_eq_mulAfter, reduce_mulAfter_r_self hx]

end

/-- The loop runs once for each bit of `b`, which loses one bit at each pass (R117). -/
theorem mulPassCount_eq_bl (p : Nat) {fuel : Nat} {l : MulLocals} (h : bl l.b ≤ fuel) :
    mulPassCount p fuel l = bl l.b := by
  induction fuel generalizing l with
  | zero => exact (Nat.le_zero.1 h).symm
  | succ fuel ih =>
    rw [mulPassCount]
    split
    next hb => rw [hb, bl_zero]
    next hb =>
      have hpass : bl (mulPass p l).b = bl l.b - 1 := bl_shiftRight l.b 1
      have hpos : 0 < bl l.b := bl_pos hb
      rw [ih (by omega), hpass]
      omega

/-- Settles O16: the locals are known modulo `p` for any operands, and reduced operands keep them reduced. -/
theorem multiplierLoopInvariants : Obligations.MultiplierLoopInvariants := by
  intro x y p _ hx hy
  refine ⟨fun k _ => ?_, fun fuel hfuel => mulPassCount_eq_bl p hfuel, fun cfg hfits => ?_,
    reduce_mulAfter_r_self hx y _, gfmul_eq_mulAfter_r hx y⟩
  · exact ⟨mulAfter_b x y p k, bl_mulAfter_a_lt hx y k, mulAfter_a hx y k, bl_mulAfter_r_lt hx y k, mulAfter_r hx y k,
      bl_mulAfter_a_shiftLeft_le hx y k, reduce_shiftLeft_one (bl_mulAfter_a_lt hx y k)⟩
  · exact Nat.le_sub_one_of_lt (hy.trans_le ((fits_iff cfg p).1 hfits))

/-! GFMUL (R118). -/

/-- Only the elements a combination reads decide what its function is applied to. -/
theorem combine_congr {W : Nat} {f g : Nat → Nat → Nat → Nat} (d : Reg) {a b : Reg} {E : Engine W}
    (h : ∀ x y, E.read a = some x → E.read b = some y →
      f x.value.toNat y.value.toNat x.modulus.toNat = g x.value.toNat y.value.toNat x.modulus.toNat) :
    combine f d a b E = combine g d a b E := by
  obtain ⟨hf, hempty⟩ | ⟨x, y, ha, hb, hm, hf⟩ | ⟨x, y, ha, hb, hm, hf⟩ := combine_cases f d a b E
  · rw [hf, combine_of_empty g d hempty]
  · rw [hf, combine_of_mismatch g d ha hb hm]
  · rw [hf, combine_of_compat g d ha hb hm, h x y ha hb]

/-- On good elements GFMUL combines its sources by the reduced carry-less product (R120). -/
theorem gfmulOn_eq_combine_clmul {W : Nat} {E : Engine W} (hE : E.Ok) (d a b : Reg) :
    gfmulOn d a b E = combine (fun x y p => reduce (clmul x y) p) d a b E :=
  combine_congr d fun x _ ha _ => gfmul_eq_reduce_clmul (hE a x ha).1 _ _

theorem gfmulOn_comm {W : Nat} {E : Engine W} (hE : E.Ok) (d a b : Reg) : gfmulOn d a b E = gfmulOn d b a E := by
  rw [gfmulOn_eq_combine_clmul hE, gfmulOn_eq_combine_clmul hE]
  exact combine_comm (fun x y p => by rw [clmul_comm]) d a b E

theorem exec_gfmul (d a b : Reg) (s : State) :
    exec (.gfmul d a b) s = .next (s.perform (gfmulOn d a b s.engine)) := rfl

theorem exec_gfmul_of_valid {s : State} {a b : Reg} {p x y : Word s.cfg.W} (d : Reg)
    (ha : s.readReg a = some ⟨p, x⟩) (hb : s.readReg b = some ⟨p, y⟩) :
    exec (.gfmul d a b) s = .next { s with
      engine := ⟨s.engine.regs.set d (some ⟨p, zext s.cfg.W (gfmul x.toNat y.toNat p.toNat)⟩)⟩,
      rsp := some ⟨.ok, false, zext s.cfg.W (gfmul x.toNat y.toNat p.toNat), p⟩ } := by
  rw [exec_gfmul, gfmulOn, combine_of_compat gfmul d ha hb rfl]
  rfl

/-- Settles O17: `gfmul` is the reduced carry-less product, and the field of the modulus holds it whole. -/
theorem gfmulWritesTheReducedCarrylessProduct : Obligations.GfmulWritesTheReducedCarrylessProduct := by
  refine ⟨fun _ _ => rfl, fun _ _ => bl_clmul, fun x => ⟨clmul_zero x, zero_clmul x⟩,
    fun s d a b p x y hp _ _ ha hb => ?_⟩
  have hp0 : p.toNat ≠ 0 := mt (toNat_eq_zero_iff p).1 hp
  refine ⟨zext s.cfg.W (gfmul x.toNat y.toNat p.toNat), ?_, exec_gfmul_of_valid d ha hb⟩
  rw [toNat_zext_gfmul hp0, gfmul_eq_reduce_clmul hp0]

/-- Settles O18: the laws are those of the carry-less product modulo `p`. -/
theorem multiplicationLaws : Obligations.MultiplicationLaws := by
  refine ⟨fun s d a b hs => ?_, fun s d a b p x one hs hone ha hb => ?_, fun x y z p hp _ _ _ => ?_⟩
  · rw [exec_gfmul, exec_gfmul, gfmulOn_comm ((State.inv_iff s).1 hs)]
  · have hx : bl x.toNat < bl p.toNat := (hs a _ ha).2
    rw [exec_gfmul_of_valid d ha hb, hone, gfmul_one hx, zext_toNat]
  · have hzero : gfmul 0 x p = 0 := (gfmul_comm hp 0 x).trans (gfmul_zero hp x)
    exact ⟨gfmul_zero hp x, hzero, gfmul_assoc hp x y z, gfmul_gfadd hp x y z⟩

/-- Settles O10: the word is read off on its fields, and the outcomes are those of a combination on the engine. -/
theorem gfmulMultipliesTwoElements : Obligations.GfmulMultipliesTwoElements := by
  intro s d a b dv dm
  refine ⟨decode_fieldWord 4 d a b dv dm, fun cfg => ?_,
    fun p x y ha hb => ⟨exec_gfmul_of_valid d ha hb, fun hp => ?_⟩, fun hempty => ?_, fun p q x y ha hb hpq => ?_⟩
  · rw [assemble_formatR cfg (i := .gfmul d a b) rfl]
    rfl
  · exact toNat_zext_gfmul (mt (toNat_eq_zero_iff p).1 hp) _ _
  · rw [exec_gfmul, gfmulOn, combine_of_empty gfmul d hempty]
    rfl
  · rw [exec_gfmul, gfmulOn, combine_of_mismatch gfmul d ha hb hpq]
    rfl

end Sys2Proof.Machine
end

section
/-! PROOFS. The family 43_equality_readout.md: the commands that write no register, GFEQ (R130, R131) and GFRD (R133). -/

namespace Sys2Proof.Machine

/-! Their lines of assembler text (R69). -/

/-- A line of one operand that is a word is read as its mnemonic and its operand (R69). -/
theorem assemble_one (cfg : Config) {mn a : List Char} (hmn : IsWord mn) (ha : IsWord a) :
    assemble cfg (asmLine mn [a]) = parseLine cfg [.word mn, .word a] := by
  have htokens : tokens .plain (asmLine mn [a]) = some [.word mn, .word a] := by
    have hline : asmLine mn [a] = mn ++ ' ' :: a := by simp [asmLine, List.intercalate]
    simp [hline, tokens_word hmn.1 hmn.2, tokens_isWord ha]
  rw [assemble, htokens]

/-- A line of two operands that are words is read as its mnemonic and its operands (R69). -/
theorem assemble_two (cfg : Config) {mn a b : List Char} (hmn : IsWord mn) (ha : IsWord a) (hb : IsWord b) :
    assemble cfg (asmLine mn [a, b]) = parseTwo cfg mn a b := by
  have htokens : tokens .plain (asmLine mn [a, b]) = some [.word mn, .word a, .comma, .word b] := by
    have hline : asmLine mn [a, b] = mn ++ ' ' :: (a ++ ',' :: ' ' :: b) := by simp [asmLine, List.intercalate]
    simp [hline, tokens_word hmn.1 hmn.2, tokens_word ha.1 ha.2, tokens_isWord hb]
  rw [assemble, htokens]
  rfl

theorem assemble_gfeq (cfg : Config) (a b : Reg) :
    assemble cfg (asmLine "gfeq".toList [registerName a, registerName b]) = .ok (some (encode cfg.W (.gfeq a b))) := by
  have hmn : IsWord "gfeq".toList := isWord_of_lowercase (by decide) (by simp)
  rw [assemble_two cfg hmn (isWord_registerName a) (isWord_registerName b)]
  simp [parseTwo, asmPlain, asmResult]

theorem assemble_gfrd (cfg : Config) (a : Reg) :
    assemble cfg (asmLine "gfrd".toList [registerName a]) = .ok (some (encode cfg.W (.gfrd a))) := by
  have hmn : IsWord "gfrd".toList := isWord_of_lowercase (by decide) (by simp)
  rw [assemble_one cfg hmn (isWord_registerName a)]
  simp [parseLine, asmPlain, asmResult]

/-! The fields that must be zero (R65). -/

theorem decode_gfeq_mbz {W : Nat} {d : Reg} (h : d ≠ 0) (a b : Reg) (dv dm : Word W) :
    decode ⟨fieldWord 5 d a b, dv, dm⟩ = none := by
  simp [decode_fieldWord, h]

theorem decode_gfrd_mbz {W : Nat} {d b : Reg} (h : d ≠ 0 ∨ b ≠ 0) (a : Reg) (dv dm : Word W) :
    decode ⟨fieldWord 6 d a b, dv, dm⟩ = none := by
  have hmbz : ¬ (d = 0 ∧ b = 0) := by tauto
  simp [decode_fieldWord, hmbz]

/-! The condition of GFEQ (R130). -/

theorem eqBit_eq_decide {W : Nat} (p q x y : Word W) : eqBit ⟨p, x⟩ ⟨q, y⟩ = decide (x = y ∧ p = q) :=
  (Bool.decide_and (x = y) (p = q)).symm

theorem eqBit_comm {W : Nat} (x y : Element W) : eqBit x y = eqBit y x := by
  simp only [eqBit, eq_comm]

/-- GFEQ does not depend on the order of its sources, and neither does its error. -/
theorem gfeqOn_comm {W : Nat} (a b : Reg) (E : Engine W) : gfeqOn a b E = gfeqOn b a E := by
  rcases sources_cases E a b with hempty | ⟨x, y, ha, hb⟩
  · rw [gfeqOn_of_empty hempty, gfeqOn_of_empty hempty.symm]
  · rw [gfeqOn_of_valid ha hb, gfeqOn_of_valid hb ha, eqBit_comm]

/-! GFEQ and GFRD on the machine (R131, R133). -/

theorem exec_gfeq (a b : Reg) (s : State) : exec (.gfeq a b) s = .next (s.perform (gfeqOn a b s.engine)) := rfl

theorem exec_gfrd (a : Reg) (s : State) : exec (.gfrd a) s = .next (s.perform (gfrdOn a s.engine)) := rfl

/-- Settles O11: the word is read off on its fields, and the outcomes are those of GFEQ on the engine. -/
theorem gfeqComparesTwoElements : Obligations.GfeqComparesTwoElements := by
  intro s d a b dv dm
  refine ⟨decode_fieldWord 5 0 a b dv dm, fun cfg => ?_, fun p q x y ha hb => ?_, fun hempty => ?_, fun hd => ?_, ?_⟩
  · rw [assemble_gfeq]
    rfl
  · rw [exec_gfeq, gfeqOn_of_valid ha hb, eqBit_eq_decide]
    rfl
  · rw [exec_gfeq, gfeqOn_of_empty hempty]
    rfl
  · rw [runCommand_of_illegal (decode_gfeq_mbz hd a b dv dm)]
    rfl
  · rw [exec_gfeq, exec_gfeq, gfeqOn_comm]

/-- Settles O12: the word is read off on its fields, the outcomes are those of GFRD on the engine, and the element read
is good because the register it stands in is. -/
theorem gfrdReadsAnElementOut : Obligations.GfrdReadsAnElementOut := by
  intro s d a b dv dm
  refine ⟨decode_fieldWord 6 0 a 0 dv dm, fun cfg => ?_, fun p x ha => ⟨?_, fun hs => ?_⟩, fun hempty => ?_, fun h => ?_⟩
  · rw [assemble_gfrd]
    rfl
  · rw [exec_gfrd, gfrdOn_of_valid ha]
    rfl
  · obtain ⟨hmodulus, hreduced⟩ : (⟨p, x⟩ : Element s.cfg.W).Ok := hs a _ ha
    exact ⟨hreduced, mt (toNat_eq_zero_iff p).2 hmodulus⟩
  · rw [exec_gfrd, gfrdOn_of_empty hempty]
    rfl
  · rw [runCommand_of_illegal (decode_gfrd_mbz h a dv dm)]
    rfl

end Sys2Proof.Machine
end

section
/-! PROOFS. The family 44_host_conversions.md: numbers as digits (R146, R148), the hex literals (R142, R143, R146), the
bit sequences (R144, R145, R147), the polynomial text (R148), and the round trips (R149). -/

namespace Sys2Proof.Machine

/-! Numbers as digits: those of the model, most significant first, are those of Mathlib's `Nat.digits`, reversed. -/

/-- Reading digits from left to right gives the number they stand for. -/
theorem foldl_digits_eq_ofDigits (base : Nat) (ds : List Nat) :
    ds.foldl (fun n d => base * n + d) 0 = Nat.ofDigits base ds.reverse := by
  rw [Nat.ofDigits_eq_foldr, List.foldr_reverse]
  simp only [Nat.cast_id, Nat.add_comm]

theorem digits_eq_reverse {base : Nat} (hb : 1 < base) {fuel v : Nat} (h : bl v ≤ fuel) :
    digits base fuel v = (Nat.digits base v).reverse := by
  induction fuel generalizing v with
  | zero =>
    have hv : v = 0 := (bl_eq_zero_iff v).1 (Nat.le_zero.1 h)
    simp [hv, digits]
  | succ fuel ih =>
    by_cases hv : v = 0
    · simp [hv, digits]
    · have hquotient : bl (v / base) ≤ fuel := by
        rw [bl_le_iff] at h ⊢
        apply Nat.div_lt_of_lt_mul
        calc v < 2 ^ (fuel + 1) := h
          _ = 2 * 2 ^ fuel := Nat.pow_succ'
          _ ≤ base * 2 ^ fuel := Nat.mul_le_mul_right _ hb
      rw [digits, if_neg hv, ih hquotient, Nat.digits_def' hb (Nat.pos_of_ne_zero hv), List.reverse_cons]

/-- The digits that `numeral` writes: those of the number, and one `0` for zero. -/
def numeralDigits (base v : Nat) : List Nat := if v = 0 then [0] else (Nat.digits base v).reverse

theorem numeral_eq_map {base : Nat} (hb : 1 < base) (v : Nat) :
    numeral base v = (numeralDigits base v).map digitChar := by
  by_cases hv : v = 0
  · simp [numeral, numeralDigits, hv, digitChar]
  · rw [numeral, numeralDigits, if_neg hv, if_neg hv, digits_eq_reverse hb le_rfl]

theorem foldl_numeralDigits (base v : Nat) : (numeralDigits base v).foldl (fun n d => base * n + d) 0 = v := by
  rw [foldl_digits_eq_ofDigits, numeralDigits]
  split
  next hv => simp [hv]
  next => rw [List.reverse_reverse, Nat.ofDigits_digits]

theorem lt_base_of_mem_numeralDigits {base v d : Nat} (hb : 1 < base) (h : d ∈ numeralDigits base v) : d < base := by
  rw [numeralDigits] at h
  split at h
  next =>
    rw [List.mem_singleton.1 h]
    exact Nat.zero_lt_of_lt hb
  next => exact Nat.digits_lt_base hb (List.mem_reverse.1 h)

theorem numeralDigits_ne_nil (base v : Nat) : numeralDigits base v ≠ [] := by
  rw [numeralDigits]
  split
  next => exact List.cons_ne_nil _ _
  next hv => exact mt List.reverse_eq_nil_iff.1 (Nat.digits_ne_nil_iff_ne_zero.2 hv)

/-- No padding: the first digit of a number other than zero is not 0. -/
theorem head?_numeralDigits {base v : Nat} (hv : v ≠ 0) : (numeralDigits base v).head? ≠ some 0 := by
  have hne : Nat.digits base v ≠ [] := Nat.digits_ne_nil_iff_ne_zero.2 hv
  rw [numeralDigits, if_neg hv, List.head?_reverse, List.getLast?_eq_some_getLast hne, ne_eq, Option.some_inj]
  exact Nat.getLast_digit_ne_zero base hv

/-! Numerals (R146, R148). -/

theorem numeral_ne_nil {base : Nat} (hb : 1 < base) (v : Nat) : numeral base v ≠ [] := by
  rw [numeral_eq_map hb, ne_eq, List.map_eq_nil_iff]
  exact numeralDigits_ne_nil base v

theorem digitChar_eq_zero_iff {d : Nat} (h : d < 16) : digitChar d = '0' ↔ d = 0 := by
  revert d
  decide

theorem head?_numeral {base v : Nat} (hb : 1 < base) (hb16 : base ≤ 16) (hv : v ≠ 0) :
    (numeral base v).head? ≠ some '0' := by
  rw [numeral_eq_map hb, List.head?_map, ne_eq, Option.map_eq_some_iff]
  rintro ⟨d, hd, hchar⟩
  have hlt : d < base := lt_base_of_mem_numeralDigits hb (List.mem_of_head? hd)
  rw [digitChar_eq_zero_iff (hlt.trans_le hb16)] at hchar
  exact head?_numeralDigits hv (hchar ▸ hd)

theorem toNat_digitChar {d : Nat} (h : d < 10) : (digitChar d).toNat = 48 + d := by
  revert d
  decide

theorem parseDigits_map_digitChar {base : Nat} (hb : base ≤ 10) {ds : List Nat} (h : ∀ d ∈ ds, d < base) (v : Nat) :
    parseDigits base (ds.map digitChar) v = some (ds.foldl (fun n d => base * n + d) v) := by
  induction ds generalizing v with
  | nil => rfl
  | cons d ds ih =>
    obtain ⟨hd, hds⟩ := List.forall_mem_cons.1 h
    have hchar : (digitChar d).toNat = 48 + d := toNat_digitChar (hd.trans_le hb)
    rw [List.map_cons, parseDigits, hchar, if_pos ⟨Nat.le_add_right _ _, Nat.add_lt_add_left hd _⟩,
      Nat.add_sub_cancel_left, ih hds, List.foldl_cons]

/-- A numeral in a base that `parseDigits` reads is read as its number. -/
theorem parseDigits_numeral {base : Nat} (hb : 1 < base) (hb10 : base ≤ 10) (v : Nat) :
    parseDigits base (numeral base v) 0 = some v := by
  rw [numeral_eq_map hb, parseDigits_map_digitChar hb10 fun d => lt_base_of_mem_numeralDigits hb, foldl_numeralDigits]

/-! Hexadecimal digits (R142, R143). -/

/-- The digits of the grammar of R143. -/
def IsHexDigit (c : Char) : Prop := ('0' ≤ c ∧ c ≤ '9') ∨ ('a' ≤ c ∧ c ≤ 'f') ∨ ('A' ≤ c ∧ c ≤ 'F')

/-- The value of a hexadecimal digit, by the order of the three ranges among the characters. -/
def hexDigit (c : Char) : Nat := if c ≤ '9' then c.toNat - 48 else if c ≤ 'F' then c.toNat - 55 else c.toNat - 87

theorem char_le_iff (c d : Char) : c ≤ d ↔ c.toNat ≤ d.toNat := UInt32.le_iff_toNat_le

theorem isHexDigit_iff (c : Char) : IsHexDigit c ↔ (48 ≤ c.toNat ∧ c.toNat ≤ 57) ∨ (97 ≤ c.toNat ∧ c.toNat ≤ 102) ∨
    (65 ≤ c.toNat ∧ c.toNat ≤ 70) := by
  simp only [IsHexDigit, char_le_iff]
  rfl

theorem hexDigitValue_of_isHexDigit {c : Char} (h : IsHexDigit c) : hexDigitValue c = some (hexDigit c) := by
  have h9 : c ≤ '9' ↔ c.toNat ≤ 57 := char_le_iff c '9'
  have hF : c ≤ 'F' ↔ c.toNat ≤ 70 := char_le_iff c 'F'
  simp only [hexDigitValue, hexDigit, h9, hF]
  rcases (isHexDigit_iff c).1 h with hdigit | hlower | hupper
  · rw [if_pos hdigit, if_pos hdigit.2]
  · rw [if_neg (by omega), if_pos hlower, if_neg (by omega), if_neg (by omega)]
  · rw [if_neg (by omega), if_neg (by omega), if_pos hupper, if_neg (by omega), if_pos hupper.2]

theorem hexDigitValue_of_not_isHexDigit {c : Char} (h : ¬ IsHexDigit c) : hexDigitValue c = none := by
  rw [isHexDigit_iff, not_or, not_or] at h
  obtain ⟨hdigit, hlower, hupper⟩ := h
  rw [hexDigitValue, if_neg hdigit, if_neg hlower, if_neg hupper]

theorem hexDigitValue_digitChar {d : Nat} (h : d < 16) : hexDigitValue (digitChar d) = some d := by
  revert d
  decide

/-! Hex literals (R142, R143). -/

/-- Characters `g a` that are read as the digits `f a` are read as the number of these digits. -/
theorem hexDigitsValue_map {α : Type} {g : α → Char} {f : α → Nat} {l : List α}
    (h : ∀ a ∈ l, hexDigitValue (g a) = some (f a)) (v : Nat) :
    hexDigitsValue (l.map g) v = .ok (l.foldl (fun n a => 16 * n + f a) v) := by
  induction l generalizing v with
  | nil => rfl
  | cons a l ih =>
    obtain ⟨ha, hl⟩ := List.forall_mem_cons.1 h
    simp only [List.map_cons, hexDigitsValue, ha, ih hl, List.foldl_cons]

theorem hexDigitsValue_of_isHexDigit {cs : List Char} (h : ∀ c ∈ cs, IsHexDigit c) (v : Nat) :
    hexDigitsValue cs v = .ok (cs.foldl (fun n c => 16 * n + hexDigit c) v) := by
  have hread := hexDigitsValue_map (g := id) (fun c hc => hexDigitValue_of_isHexDigit (h c hc)) v
  rwa [List.map_id] at hread

theorem hexDigitsValue_of_not_isHexDigit {cs : List Char} (h : ∃ c ∈ cs, ¬ IsHexDigit c) (v : Nat) :
    hexDigitsValue cs v = .error .malformedEncoding := by
  induction cs generalizing v with
  | nil => simp at h
  | cons c cs ih =>
    rw [hexDigitsValue]
    by_cases hc : IsHexDigit c
    · rw [hexDigitValue_of_isHexDigit hc]
      exact ih (by simpa [hc] using h) _
    · rw [hexDigitValue_of_not_isHexDigit hc]

/-- Text of the form of a hex literal, `0x` or `0X` and at least one character, is read digit by digit. -/
theorem fromHex_eq_hexDigitsValue {x : Char} {ds : List Char} (hx : x = 'x' ∨ x = 'X') (hds : ds ≠ []) :
    fromHex ('0' :: x :: ds) = hexDigitsValue ds 0 := by
  obtain ⟨c, cs, rfl⟩ := List.exists_cons_of_ne_nil hds
  rcases hx with rfl | rfl <;> rfl

theorem fromHex_of_not_0x {cs : List Char} (h : ¬ ∃ x ds, cs = '0' :: x :: ds ∧ (x = 'x' ∨ x = 'X') ∧ ds ≠ []) :
    fromHex cs = .error .malformedEncoding := by
  unfold fromHex
  split
  next c cs => exact absurd ⟨'x', c :: cs, rfl, .inl rfl, List.cons_ne_nil c cs⟩ h
  next c cs => exact absurd ⟨'X', c :: cs, rfl, .inr rfl, List.cons_ne_nil c cs⟩ h
  next => rfl

/-- Settles O45: the two characters `0x` decide first, and then every character after them. -/
theorem hexLiteralsAcceptedExactlyByTheGrammar : Obligations.HexLiteralsAcceptedExactlyByTheGrammar := by
  intro cs literal digit
  refine ⟨fun x ds hliteral => ?_, fun hnot => ?_⟩
  · obtain ⟨rfl, hx, hds, hdigits⟩ := hliteral
    rw [fromHex_eq_hexDigitsValue hx hds]
    exact hexDigitsValue_of_isHexDigit hdigits 0
  · by_cases hform : ∃ x ds, cs = '0' :: x :: ds ∧ (x = 'x' ∨ x = 'X') ∧ ds ≠ []
    · obtain ⟨x, ds, rfl, hx, hds⟩ := hform
      rw [fromHex_eq_hexDigitsValue hx hds]
      apply hexDigitsValue_of_not_isHexDigit
      by_contra! hdigits
      exact hnot ⟨x, ds, rfl, hx, hds, hdigits⟩
    · exact fromHex_of_not_0x hform

/-! The hex rendering (R146, R149). -/

theorem digitChar_lowercase {d : Nat} (h : d < 16) : ('0' ≤ digitChar d ∧ digitChar d ≤ '9') ∨
    ('a' ≤ digitChar d ∧ digitChar d ≤ 'f') := by
  revert d
  decide

theorem digitChar_value {d : Nat} (h : d < 16) :
    (if digitChar d ≤ '9' then (digitChar d).toNat - 48 else (digitChar d).toNat - 87) = d := by
  revert d
  decide

/-- Settles O46: the rendering is `0x` and the characters of the number's digits. -/
theorem hexRenderingIsCanonical : Obligations.HexRenderingIsCanonical := by
  intro v
  have hlt {d : Nat} (hd : d ∈ numeralDigits 16 v) : d < 16 := lt_base_of_mem_numeralDigits (by decide) hd
  refine ⟨numeral 16 v, rfl, numeral_ne_nil (by decide) v, ?_, fun hv => if_pos hv,
    head?_numeral (by decide) (by decide), ?_⟩
  · rw [numeral_eq_map (by decide), List.forall_mem_map]
    exact fun d hd => digitChar_lowercase (hlt hd)
  · rw [numeral_eq_map (by decide), List.foldl_map]
    calc (numeralDigits 16 v).foldl _ 0
      _ = (numeralDigits 16 v).foldl (fun n d => 16 * n + d) 0 :=
        List.foldl_ext _ _ 0 fun n d hd => congrArg (16 * n + ·) (digitChar_value (hlt hd))
      _ = v := foldl_numeralDigits 16 v

theorem fromHex_toHex (v : Nat) : fromHex (toHex v) = .ok v := by
  have hread : ∀ d ∈ numeralDigits 16 v, hexDigitValue (digitChar d) = some d := fun d hd =>
    hexDigitValue_digitChar (lt_base_of_mem_numeralDigits (by decide) hd)
  rw [toHex, fromHex_eq_hexDigitsValue (.inl rfl) (numeral_ne_nil (by decide) v), numeral_eq_map (by decide),
    hexDigitsValue_map hread, foldl_numeralDigits]

/-! Bit sequences (R144, R145). -/

theorem fromBits_of_bits {seq : List Nat} (h : ∀ b ∈ seq, b = 0 ∨ b = 1) :
    fromBits seq = .ok (Nat.ofDigits 2 seq.reverse) := by
  have hall : seq.all (fun b => decide (b ≤ 1)) = true := by
    simpa only [List.all_eq_true, decide_eq_true_eq, Nat.le_one_iff_eq_zero_or_eq_one] using h
  rw [fromBits, if_pos hall, foldl_digits_eq_ofDigits]

theorem fromBits_of_not_bit {seq : List Nat} (h : ∃ b ∈ seq, b ≠ 0 ∧ b ≠ 1) :
    fromBits seq = .error .malformedEncoding := by
  obtain ⟨b, hb, h0, h1⟩ := h
  have hall : seq.all (fun b => decide (b ≤ 1)) ≠ true := fun hall => by
    have hle : b ≤ 1 := of_decide_eq_true (List.all_eq_true.1 hall b hb)
    omega
  rw [fromBits, if_neg hall]

/-- The number of its digits, least significant first, is the sum of the digits by their weights. -/
theorem ofDigits_eq_sum_getElem? (base : Nat) (ds : List Nat) :
    Nat.ofDigits base ds = ∑ j ∈ Finset.range ds.length, ds[j]?.getD 0 * base ^ j := by
  induction ds with
  | nil => rfl
  | cons d ds ih =>
    rw [Nat.ofDigits_cons, ih, List.length_cons, Finset.sum_range_succ', Finset.mul_sum, Nat.add_comm]
    simp [pow_succ', mul_left_comm]

/-- Settles O47: a good sequence is the number of its entries as digits in base 2. -/
theorem bitSequencesPackMostSignificantFirst : Obligations.BitSequencesPackMostSignificantFirst := by
  intro seq
  refine ⟨fromBits_of_not_bit, fun h => ?_, rfl⟩
  rw [fromBits_of_bits h, ofDigits_eq_sum_getElem?, List.length_reverse]

/-! The bit-vector rendering (R147, R149). -/

theorem toBits_reverse (rv rm : Nat) :
    (toBits rv rm).reverse = (List.range (bl rm - 1)).map (fun k => (rv.testBit k).toNat) := by
  rw [toBits, ← List.map_reverse, List.reverse_reverse]

/-- Settles O48: the entries are the bits below the degree, reversed. -/
theorem bitVectorHasTheWidthOfTheDegree : Obligations.BitVectorHasTheWidthOfTheDegree := by
  intro rv rm
  have hlen : (toBits rv rm).length = bl rm - 1 := by simp [toBits]
  refine ⟨hlen, fun j hj => ?_⟩
  have hentry : bl rm - 1 - 1 - j < bl rm - 1 := by omega
  rw [← List.reverse_reverse (toBits rv rm), List.getElem?_reverse, toBits_reverse]
  · simp [hentry]
  · rwa [List.length_reverse, hlen]

theorem bits_of_mem_toBits {rv rm b : Nat} (h : b ∈ toBits rv rm) : b = 0 ∨ b = 1 := by
  obtain ⟨k, -, rfl⟩ := List.mem_map.1 h
  cases rv.testBit k
  · exact .inl rfl
  · exact .inr rfl

theorem ofDigits_testBits (v m : Nat) :
    Nat.ofDigits 2 ((List.range m).map (fun k => (v.testBit k).toNat)) = v % 2 ^ m := by
  induction m with
  | zero => exact (Nat.mod_one v).symm
  | succ m ih =>
    rw [List.range_succ, List.map_append, Nat.ofDigits_append, ih, List.length_map, List.length_range, Nat.mod_pow_succ,
      List.map_singleton, Nat.ofDigits_singleton, Nat.toNat_testBit]

/-- A reduced value has no bit at the degree or above, so that the rendering keeps all of it. -/
theorem fromBits_toBits {v p : Nat} (h : bl v < bl p) : fromBits (toBits v p) = .ok v := by
  have hlt : v < 2 ^ (bl p - 1) := (bl_le_iff _ _).1 (Nat.le_sub_one_of_lt h)
  rw [fromBits_of_bits fun _ => bits_of_mem_toBits, toBits_reverse, ofDigits_testBits, Nat.mod_eq_of_lt hlt]

/-! The polynomial text (R148). -/

/-- The exponents of the terms of `v`, in descending order. -/
def exponents (v : Nat) : List Nat := (List.range (bl v)).reverse.filter (fun k => v.testBit k)

/-- Bits above the number's length give no terms. -/
theorem exponents_of_bl_le {v m : Nat} (h : bl v ≤ m) :
    exponents v = (List.range m).reverse.filter (fun k => v.testBit k) := by
  induction m, h using Nat.le_induction with
  | base => rfl
  | succ m hm ih => simp [List.range_succ, testBit_of_bl_le hm, ih]

theorem exponents_leading_term {k v : Nat} (h : bl v ≤ k) : exponents (2 ^ k ^^^ v) = k :: exponents v := by
  have htop : (2 ^ k ^^^ v).testBit k = true := by
    rw [Nat.testBit_xor, testBit_of_bl_le h, Nat.testBit_two_pow_self, Bool.xor_false]
  have hlow : ∀ i ∈ (List.range k).reverse, (2 ^ k ^^^ v).testBit i = v.testBit i := by
    intro i hi
    have hne : k ≠ i := Nat.ne_of_gt (by simpa using hi)
    simp [hne]
  rw [exponents, bl_leading_term h, List.range_succ, List.reverse_append, List.reverse_singleton,
    List.singleton_append, List.filter_cons_of_pos htop, List.filter_congr hlow, exponents_of_bl_le h]

theorem exponents_ne_nil {v : Nat} (hv : v ≠ 0) : exponents v ≠ [] := by
  obtain ⟨hlt, heq⟩ := leading_bit_split hv
  rw [heq, exponents_leading_term (Nat.le_sub_one_of_lt hlt)]
  exact List.cons_ne_nil _ _

theorem toPolynomial_of_ne_zero {v : Nat} (hv : v ≠ 0) :
    toPolynomial v = List.intercalate [' ', '+', ' '] ((exponents v).map term) := if_neg hv

theorem toPolynomial_leading_term {k v : Nat} (h : bl v ≤ k) :
    toPolynomial (2 ^ k ^^^ v) = term k ++ if v = 0 then [] else [' ', '+', ' '] ++ toPolynomial v := by
  have hne : 2 ^ k ^^^ v ≠ 0 := by
    rw [ne_eq, ← bl_eq_zero_iff, bl_leading_term h]
    exact Nat.succ_ne_zero k
  rw [toPolynomial_of_ne_zero hne, exponents_leading_term h, List.map_cons]
  split
  next hv =>
    simp [hv, exponents]
  next hv =>
    have hterms : (exponents v).map term ≠ [] := mt List.map_eq_nil_iff.1 (exponents_ne_nil hv)
    rw [List.intercalate_cons_of_ne_nil hterms, toPolynomial_of_ne_zero hv, List.append_assoc]

/-- Settles O49: the leading term is written first, and decimal numerals are the digits of their number. -/
theorem polynomialRenderingListsTermsInDescendingOrder : Obligations.PolynomialRenderingListsTermsInDescendingOrder :=
  ⟨rfl, fun _ _ => toPolynomial_leading_term,
    fun k => ⟨parseDigits_numeral (by decide) (by decide) k, head?_numeral (by decide) (by decide)⟩⟩

/-! The round trips (R149). -/

theorem expand_gfnewh {cfg : Config} (d : Reg) {literal : List Char} {v p : Word cfg.W}
    (h : fromHex literal = .ok v.toNat) :
    (Pseudo.gfnewh d literal p.toNat).expand cfg = .ok ⟨fieldWord 1 d 0 0, v, p⟩ := by
  simp only [Pseudo.expand, h, construct_of_fits d v.isLt p.isLt, zext_toNat]

theorem expand_gfnewb {cfg : Config} (d : Reg) {bits : List Nat} {v p : Word cfg.W}
    (h : fromBits bits = .ok v.toNat) :
    (Pseudo.gfnewb d bits p.toNat).expand cfg = .ok ⟨fieldWord 1 d 0 0, v, p⟩ := by
  simp only [Pseudo.expand, h, construct_of_fits d v.isLt p.isLt, zext_toNat]

/-- GFNEW of a reduced value leaves it as it is (R85). -/
theorem gfnewOn_of_ok {W : Nat} (d : Reg) {p v : Word W} (h : (⟨p, v⟩ : Element W).Ok) (E : Engine W) :
    gfnewOn d v p E = complete d ⟨p, v⟩ E := by
  rw [gfnewOn_of_ne d v h.1, reduce_of_lt h.2, zext_toNat]

theorem runCommand_gfnew (d : Reg) (s : State) (v p : Word s.cfg.W) :
    runCommand s ⟨fieldWord 1 d 0 0, v, p⟩ = .next (s.perform (gfnewOn d v p s.engine)) := by
  rw [runCommand_of_decode (decode_fieldWord 1 d 0 0 v p)]
  exact execGfnew_toNat d s v p

/-- GFEQ of two registers with the same element answers 1. -/
theorem gfeqOn_of_same {W : Nat} {E : Engine W} {a b : Reg} {x : Element W} (ha : E.read a = some x)
    (hb : E.read b = some x) : gfeqOn a b E = (E, .ofEq true) := by
  rw [gfeqOn_of_valid ha hb]
  simp [eqBit]

/-- Settles O44: both renderings are read back as the value, so both pseudo-commands are the GFNEW of a reduced
value, and its destination then holds what register `i` holds, also where it is register `i`. -/
theorem encodingRoundTrips : Obligations.EncodingRoundTrips := by
  intro s i d p v hs hi
  have hok : (⟨p, v⟩ : Element s.cfg.W).Ok := hs i _ hi
  have hhex : fromHex (toHex v.toNat) = .ok v.toNat := fromHex_toHex v.toNat
  have hbits : fromBits (toBits v.toNat p.toNat) = .ok v.toNat := fromBits_toBits hok.2
  have hd : (s.engine.write d ⟨p, v⟩).read d = some ⟨p, v⟩ := Engine.read_write_self _ d _
  have hi' : (s.engine.write d ⟨p, v⟩).read i = some ⟨p, v⟩ := by
    rw [Engine.read_write]
    split
    · rfl
    · exact hi
  refine ⟨hhex, hbits, ⟨fieldWord 1 d 0 0, v, p⟩, s.engine.write d ⟨p, v⟩, .ofElement ⟨p, v⟩, expand_gfnewh d hhex,
    expand_gfnewb d hbits, ?_, hd, ?_⟩
  · rw [runCommand_gfnew, gfnewOn_of_ok d hok]
    rfl
  · rw [exec_gfeq, gfeqOn_of_same hd hi']
    rfl

end Sys2Proof.Machine
end

section
/-! PROOFS. The family 60_exceptions.md: the status of an issued command (R165, R168), and that an error has no effect
but its response (R166). -/

namespace Sys2Proof.Machine

/-! An issued command on a ready engine (R50, R165). -/

section
variable {s : State} {c : Command s.cfg.W} {rest : List (HostEvent s.cfg.W)}

theorem step_issue_of_illegal (h : s.script = .issue c :: rest) (ready : s.rsp = none) (hd : decode c = none) :
    step s = .next ((s.withScript rest).perform (raise .illegalCommand s.engine)) := by
  rw [step_issue h ready]
  exact runCommand_of_illegal hd

theorem step_issue_of_decode {i : Instr} (h : s.script = .issue c :: rest) (ready : s.rsp = none)
    (hd : decode c = some i) : step s = .next ((s.withScript rest).perform (execOn i s.engine)) := by
  rw [step_issue h ready, runCommand_of_decode (s := s.withScript rest) hd]
  exact exec_of_wellFormed (wellFormed_of_decode hd)

end

/-! What the response to a command says of its result (R165, R166). -/

section
variable {W : Nat} {i : Instr} {E : Engine W} {r : Result W}

/-- A legal instruction is never answered with `IllegalCommand`. -/
theorem ResultOf.status_ne_illegalCommand (h : ResultOf i E r) : r.2.st ≠ .err .illegalCommand := by
  cases h with
  | error k _ legal => exact mt Status.err.inj legal
  | equality | readOut | construction | combination => exact Status.noConfusion

/-- A result with a status other than `OK` is that of taking an error: the engine as it was, and `(code, 0, 0, 0)`. -/
theorem ResultOf.eq_of_error (h : ResultOf i E r) (hst : r.2.st ≠ .ok) : r = (E, ⟨r.2.st, false, 0, 0⟩) := by
  cases h with
  | error => rfl
  | equality | readOut | construction | combination => exact absurd rfl hst

end

/-! The words that select no command (R64, R65). -/

/-- R165 on the four fields of a command word: `OP` is 0 or 7 or more, or a must-be-zero field is not zero. -/
def IllegalFields (op rd ra rb : Nat) : Prop :=
  op = 0 ∨ 7 ≤ op ∨ (op = 1 ∧ (ra ≠ 0 ∨ rb ≠ 0)) ∨ (op = 5 ∧ rd ≠ 0) ∨ (op = 6 ∧ (rd ≠ 0 ∨ rb ≠ 0))

/-- The decoder answers `none` in its last branch alone, and there the fields are those of R165. -/
theorem decode_eq_none_iff {W : Nat} (c : Command W) :
    decode c = none ↔ IllegalFields c.cw.op c.cw.rd c.cw.ra c.cw.rb := by
  rw [decode, IllegalFields]
  simp only [Fin.ext_iff]
  split_ifs with hnew hadd hsub hmul heq hread
  case neg => exact iff_of_true rfl (by omega)
  all_goals exact iff_of_false not_false (by omega)

/-- Settles O6: the words that decode to nothing are those of R165, and no legal instruction raises `IllegalCommand`. -/
theorem illegalWordsAndNoOthersAnswerIllegalCommand : Obligations.IllegalWordsAndNoOthersAnswerIllegalCommand := by
  intro s c rest hscript ready op rd ra rb illegal
  have hillegal : decode c = none ↔ illegal := by
    rw [decode_eq_none_iff, op_eq_bits, rd_eq_bits, ra_eq_bits, rb_eq_bits]
    rfl
  rw [← hillegal]
  refine ⟨step_issue_of_illegal hscript ready, fun hlegal => ?_⟩
  obtain ⟨i, hd⟩ := Option.ne_none_iff_exists'.1 hlegal
  have hresult : ResultOf i s.engine (execOn i s.engine) := execOn_result (wellFormed_of_decode hd) s.engine
  exact ⟨_, _, step_issue_of_decode hscript ready hd, rfl, hresult.status_ne_illegalCommand⟩

/-- Settles O22: an illegal word and an instruction that fails both leave the engine as it was and present the code. -/
theorem anErrorHasNoOtherEffect : Obligations.AnErrorHasNoOtherEffect := by
  intro s t c rest r hscript ready hstep hr hst
  cases hd : decode c with
  | none =>
    cases (step_issue_of_illegal hscript ready hd).symm.trans hstep
    cases hr
    rfl
  | some i =>
    cases (step_issue_of_decode hscript ready hd).symm.trans hstep
    cases hr
    have hresult : ResultOf i s.engine (execOn i s.engine) := execOn_result (wellFormed_of_decode hd) s.engine
    exact congrArg (s.withScript rest).perform (hresult.eq_of_error hst)

/-! The status of an instruction, in the order of R168. -/

section
variable {W : Nat} {E : Engine W} {a b : Reg}

/-- A combination of two elements fails exactly when their moduli differ (R163). -/
theorem combine_status_of_valid (f : Nat → Nat → Nat → Nat) (d : Reg) (ha : E.read a ≠ none) (hb : E.read b ≠ none) :
    (combine f d a b E).2.st =
      if (E.read a).map Element.modulus ≠ (E.read b).map Element.modulus then .err .incompatibleField else .ok := by
  obtain ⟨_, h⟩ | ⟨x, y, hx, hy, hm, h⟩ | ⟨x, y, hx, hy, hm, h⟩ := combine_cases f d a b E
  · tauto
  · rw [h, hx, hy]
    exact (if_pos (mt Option.some.inj hm)).symm
  · rw [h, hx, hy]
    exact (if_neg (not_not.2 (congrArg some hm))).symm

/-- GFNEW fails exactly when its modulus is 0 (R161). -/
theorem gfnewOn_status (d : Reg) (v p : Word W) (E : Engine W) :
    (gfnewOn d v p E).2.st = if p.toNat = 0 then .err .invalidModulus else .ok := by
  rw [gfnewOn]
  split_ifs <;> rfl

theorem gfeqOn_status_of_valid (ha : E.read a ≠ none) (hb : E.read b ≠ none) : (gfeqOn a b E).2.st = .ok := by
  obtain h | ⟨x, y, hx, hy⟩ := sources_cases E a b
  · tauto
  · rw [gfeqOn_of_valid hx hy]
    rfl

theorem gfrdOn_status_of_valid (ha : E.read a ≠ none) : (gfrdOn a E).2.st = .ok := by
  obtain ⟨x, hx⟩ := Option.ne_none_iff_exists'.1 ha
  rw [gfrdOn_of_valid hx]
  rfl

/-- An empty source is answered with `EmptyRegister`, before the sources are compared (R164, R168). -/
theorem execOn_status_of_empty {i : Instr} (h : ∃ a ∈ i.sources, E.read a = none) :
    (execOn i E).2.st = .err .emptyRegister := by
  cases i with
  | gfnew => simp [Instr.sources] at h
  | gfadd d a b | gfsub d a b | gfmul d a b =>
    exact congrArg (·.2.st) (combine_of_empty _ d (by simpa [Instr.sources] using h))
  | gfeq a b => exact congrArg (·.2.st) (gfeqOn_of_empty (by simpa [Instr.sources] using h))
  | gfrd a => exact congrArg (·.2.st) (gfrdOn_of_empty (by simpa [Instr.sources] using h))

end

/-- Settles O21: an empty source comes first, and with valid sources each instruction has one condition left to test. -/
theorem oneStatusInPriorityOrder : Obligations.OneStatusInPriorityOrder := by
  intro s c rest hscript ready
  cases hd : decode c with
  | none => exact ⟨_, _, step_issue_of_illegal hscript ready hd, rfl, rfl⟩
  | some i =>
    refine ⟨_, _, step_issue_of_decode hscript ready hd, rfl, ?_⟩
    dsimp only
    split_ifs with hempty
    · exact execOn_status_of_empty hempty
    · have hvalid : ∀ a ∈ i.sources, s.engine.read a ≠ none := fun a ha hnone => hempty ⟨a, ha, hnone⟩
      cases i with
      | gfnew d v p =>
        have hp : p < 2 ^ s.cfg.W := ((wellFormed_gfnew_iff s.cfg d v p).1 (wellFormed_of_decode hd)).2
        have hst := gfnewOn_status d (zext s.cfg.W v) (zext s.cfg.W p) s.engine
        rwa [toNat_zext ((fits_iff s.cfg p).1 hp)] at hst
      | gfadd d a b | gfsub d a b | gfmul d a b =>
        exact combine_status_of_valid _ d (hvalid a (by simp [Instr.sources])) (hvalid b (by simp [Instr.sources]))
      | gfeq a b =>
        exact gfeqOn_status_of_valid (hvalid a (by simp [Instr.sources])) (hvalid b (by simp [Instr.sources]))
      | gfrd a => exact gfrdOn_status_of_valid (hvalid a (by simp [Instr.sources]))

end Sys2Proof.Machine
end

section
/-! PROOFS. The family 70_reset_and_hazards.md: every command terminates and produces its response (R197). -/

namespace Sys2Proof.Machine

/-- A ready engine completes an issued command in one step, with the engine's step function's result (R50, R197). -/
theorem step_issue_perform {s : State} {c : Command s.cfg.W} {rest : List (HostEvent s.cfg.W)}
    (h : s.script = .issue c :: rest) (ready : s.rsp = none) :
    step s = .next ((s.withScript rest).perform (engineStep s.engine c)) :=
  (step_issue h ready).trans (runCommand_eq (s.withScript rest) c)

/-- No step ends in a fault or a refusal. -/
theorem step_goes_on (s : State) : ∃ t, step s = .next t := by
  rcases step_cases s with idle | ⟨_, _, _, take⟩ | ⟨_, _, _, drive⟩ | ⟨_, _, _, _, reset⟩ |
    ⟨_, _, hscript, ready, _⟩
  · exact ⟨_, idle⟩
  · exact ⟨_, take⟩
  · exact ⟨_, drive⟩
  · exact ⟨_, reset⟩
  · exact ⟨_, step_issue_perform hscript ready⟩

/-- Settles O38: an issued command's engine and response are those of the engine's step function, which is total. -/
theorem everyCommandCompletesWithAResponse : Obligations.EveryCommandCompletesWithAResponse := fun s =>
  ⟨step_goes_on s, fun _ _ hscript ready => ⟨_, _, step_issue_perform hscript ready⟩⟩

end Sys2Proof.Machine
end

section
/-! PROOFS. The opcode map of 30_encoding.md section 3: masks and matches, and how many words are legal (R63), and the
words it writes out bit by bit. -/

namespace Sys2Proof.Machine

/-! Words as fields (R60). -/

theorem fieldWord_inj {op op' : Fin 16} {rd rd' ra ra' rb rb' : Reg}
    (h : fieldWord op rd ra rb = fieldWord op' rd' ra' rb') : op = op' ∧ rd = rd' ∧ ra = ra' ∧ rb = rb' :=
  ⟨by simpa using congrArg CommandWord.op h, by simpa using congrArg CommandWord.rd h,
    by simpa using congrArg CommandWord.ra h, by simpa using congrArg CommandWord.rb h⟩

/-- The bitwise AND of two numbers with a lowest digit in base 16 is taken on the digit and on the rest. -/
theorem land_sixteen_mul_add (a c : Nat) {b d : Nat} (hb : b < 16) (hd : d < 16) :
    (16 * a + b) &&& (16 * c + d) = 16 * (a &&& c) + (b &&& d) := by
  have hbd : b &&& d < 2 ^ 4 := Nat.and_lt_two_pow b hd
  apply Nat.eq_of_testBit_eq
  intro i
  rw [Nat.testBit_and, Nat.testBit_two_pow_mul_add (i := 4) a hb, Nat.testBit_two_pow_mul_add (i := 4) c hd,
    Nat.testBit_two_pow_mul_add (i := 4) _ hbd]
  split <;> simp only [Nat.testBit_and]

/-- A mask acts on each field by itself. -/
theorem fieldWord_and (op op' : Fin 16) (rd rd' ra ra' rb rb' : Reg) :
    fieldWord op rd ra rb &&& fieldWord op' rd' ra' rb' =
      fieldWord (op &&& op') (rd &&& rd') (ra &&& ra') (rb &&& rb') := by
  have horner (o d a b : Nat) : 4096 * o + 256 * d + 16 * a + b = 16 * (16 * (16 * o + d) + a) + b := by omega
  have hval (x y : Fin 16) : (x &&& y).val = x.val &&& y.val :=
    Nat.mod_eq_of_lt (Nat.and_lt_two_pow (n := 4) x.val y.isLt)
  apply BitVec.eq_of_toNat_eq
  rw [BitVec.toNat_and]
  simp only [toNat_fieldWord, hval, horner]
  rw [land_sixteen_mul_add _ _ rb.isLt rb'.isLt, land_sixteen_mul_add _ _ ra.isLt ra'.isLt,
    land_sixteen_mul_add _ _ rd.isLt rd'.isLt]

/-- The fields of a legal word are those of the instruction that it selects. -/
theorem fields_of_decode {W : Nat} {op : Fin 16} {rd ra rb : Reg} {dv dm : Word W} {i : Instr}
    (h : decode ⟨fieldWord op rd ra rb, dv, dm⟩ = some i) :
    i.op = op ∧ i.dest.getD 0 = rd ∧ i.sources[0]?.getD 0 = ra ∧ i.sources[1]?.getD 0 = rb :=
  fieldWord_inj ((encode_cw i W).symm.trans (encode_cw_of_decode h))

/-! Masks and matches (R63). Field 15 of a mask tests a field of the word, and field 0 leaves it open. -/

theorem field_and_fifteen (x : Fin 16) : x &&& 15 = x := by revert x; decide

theorem field_and_zero (x : Fin 16) : x &&& 0 = 0 := by revert x; decide

/-- A mask that tests the operation code and some of the register fields for a match in which these are zero. -/
theorem mask_iff (op n : Fin 16) (rd ra rb m₁ m₂ m₃ : Reg) :
    fieldWord op rd ra rb &&& fieldWord 15 m₁ m₂ m₃ = fieldWord n 0 0 0 ↔
      op = n ∧ rd &&& m₁ = 0 ∧ ra &&& m₂ = 0 ∧ rb &&& m₃ = 0 := by
  rw [fieldWord_and, field_and_fifteen]
  exact ⟨fieldWord_inj, fun ⟨hop, hrd, hra, hrb⟩ => by rw [hop, hrd, hra, hrb]⟩

section
variable {W : Nat} (w : CommandWord) (dv dm : Word W)

theorem mask_gfnew_iff :
    w &&& 0xF0FF#16 = 0x1000#16 ↔ ∃ d, decode ⟨w, dv, dm⟩ = some (.gfnew d dv.toNat dm.toNat) := by
  rw [← fieldWord_fields w]
  refine (mask_iff _ 1 _ _ _ 0 15 15).trans ?_
  rw [field_and_fifteen, field_and_fifteen]
  constructor
  · rintro ⟨hop, -, hra, hrb⟩
    rw [hop, hra, hrb]
    exact ⟨_, decode_fieldWord 1 _ 0 0 dv dm⟩
  · rintro ⟨d, h⟩
    obtain ⟨hop, -, hra, hrb⟩ := fields_of_decode h
    exact ⟨hop.symm, field_and_zero _, hra.symm, hrb.symm⟩

/-- A row of format R leaves all three register fields open. -/
theorem mask_formatR_iff {n : Fin 16} {f : Reg → Reg → Reg → Instr} (hop : ∀ d a b, (f d a b).op = n)
    (hdecode : ∀ d a b, decode ⟨fieldWord n d a b, dv, dm⟩ = some (f d a b)) :
    w &&& fieldWord 15 0 0 0 = fieldWord n 0 0 0 ↔ ∃ d a b, decode ⟨w, dv, dm⟩ = some (f d a b) := by
  rw [← fieldWord_fields w, mask_iff]
  constructor
  · rintro ⟨hw, -⟩
    rw [hw]
    exact ⟨_, _, _, hdecode _ _ _⟩
  · rintro ⟨d, a, b, h⟩
    exact ⟨(fields_of_decode h).1.symm.trans (hop d a b), field_and_zero _, field_and_zero _, field_and_zero _⟩

theorem mask_gfeq_iff : w &&& 0xFF00#16 = 0x5000#16 ↔ ∃ a b, decode ⟨w, dv, dm⟩ = some (.gfeq a b) := by
  rw [← fieldWord_fields w]
  refine (mask_iff _ 5 _ _ _ 15 0 0).trans ?_
  rw [field_and_fifteen]
  constructor
  · rintro ⟨hop, hrd, -, -⟩
    rw [hop, hrd]
    exact ⟨_, _, decode_fieldWord 5 0 _ _ dv dm⟩
  · rintro ⟨a, b, h⟩
    obtain ⟨hop, hrd, -, -⟩ := fields_of_decode h
    exact ⟨hop.symm, hrd.symm, field_and_zero _, field_and_zero _⟩

theorem mask_gfrd_iff : w &&& 0xFF0F#16 = 0x6000#16 ↔ ∃ a, decode ⟨w, dv, dm⟩ = some (.gfrd a) := by
  rw [← fieldWord_fields w]
  refine (mask_iff _ 6 _ _ _ 15 0 15).trans ?_
  rw [field_and_fifteen, field_and_fifteen]
  constructor
  · rintro ⟨hop, hrd, -, hrb⟩
    rw [hop, hrd, hrb]
    exact ⟨_, decode_fieldWord 6 0 _ 0 dv dm⟩
  · rintro ⟨a, h⟩
    obtain ⟨hop, hrd, -, hrb⟩ := fields_of_decode h
    exact ⟨hop.symm, hrd.symm, field_and_zero _, hrb.symm⟩

end

/-! The number of legal words (R63). -/

/-- The register fields with which a word of operation code `op` is legal. -/
def legalFields (op : Fin 16) : Finset (Reg × Reg × Reg) :=
  if op = 1 then .univ ×ˢ {0} ×ˢ {0}
  else if op = 2 ∨ op = 3 ∨ op = 4 then .univ
  else if op = 5 then {0} ×ˢ .univ ×ˢ .univ
  else if op = 6 then {0} ×ˢ .univ ×ˢ {0}
  else ∅

/-- The legal words, operation code by operation code. -/
theorem decode_isSome_iff {W : Nat} (op : Fin 16) (f : Reg × Reg × Reg) (dv dm : Word W) :
    (decode ⟨fieldWord op f.1 f.2.1 f.2.2, dv, dm⟩).isSome = true ↔ f ∈ legalFields op := by
  obtain ⟨rd, ra, rb⟩ := f
  rw [decode_fieldWord]
  fin_cases op <;> simp [legalFields, Finset.mem_product, -Finset.singleton_product, -Finset.product_singleton]

theorem card_legalFields (op : Fin 16) : (legalFields op).card =
    if op = 1 then 16 else if op = 2 ∨ op = 3 ∨ op = 4 then 4096 else if op = 5 then 256 else if op = 6 then 16
    else 0 := by
  rw [legalFields]
  split_ifs <;> simp

/-- Settles O3: a mask acts on each field by itself, the register fields of the legal words are a product for each
operation code, and a word is its fields. -/
theorem opcodeMapSelectsByMatchAndMask : Obligations.OpcodeMapSelectsByMatchAndMask := by
  intro W
  refine ⟨fun w dv dm => ⟨mask_gfnew_iff w dv dm, ?_, ?_, ?_, mask_gfeq_iff w dv dm, mask_gfrd_iff w dv dm⟩, ?_,
    fun w => ⟨(w.op, w.rd, w.ra, w.rb), (fieldWord_fields w).symm, ?_⟩⟩
  · exact mask_formatR_iff (n := 2) (f := .gfadd) w dv dm (fun _ _ _ => rfl) fun d a b => decode_fieldWord 2 d a b dv dm
  · exact mask_formatR_iff (n := 3) (f := .gfsub) w dv dm (fun _ _ _ => rfl) fun d a b => decode_fieldWord 3 d a b dv dm
  · exact mask_formatR_iff (n := 4) (f := .gfmul) w dv dm (fun _ _ _ => rfl) fun d a b => decode_fieldWord 4 d a b dv dm
  · simp only [decode_isSome_iff, Finset.filter_univ_mem, card_legalFields]
    refine ⟨rfl, rfl, rfl, rfl, rfl, rfl, fun op hop => ?_⟩
    rw [if_neg, if_neg, if_neg, if_neg] <;> omega
  · rintro ⟨op, rd, ra, rb⟩ rfl
    simp

/-- Settles O1: each word is written by its four fields, which the decoder reads. -/
theorem decoderReadsWrittenWords : Obligations.DecoderReadsWrittenWords := fun _ dv dm =>
  ⟨decode_fieldWord 1 15 0 0 dv dm, decode_fieldWord 2 3 1 2 dv dm, decode_fieldWord 3 4 1 2 dv dm,
    decode_fieldWord 4 5 1 2 dv dm, decode_fieldWord 5 0 3 4 dv dm, decode_fieldWord 6 0 5 0 dv dm,
    decode_fieldWord 1 1 1 0 dv dm, decode_fieldWord 5 1 3 4 dv dm, decode_fieldWord 6 0 5 1 dv dm,
    decode_fieldWord 0 0 0 0 dv dm, decode_fieldWord 15 15 15 15 dv dm⟩

end Sys2Proof.Machine
end

section
/-! PROOFS. What a command leaves behind: a result in its destination (R44, R190, R191), nothing after a read (R48, R177),
how registers and moduli come and go (R23, R92, R188), and that no number is cut off (R42). -/

namespace Sys2Proof.Machine

/-! The response and the destination of a success (R44). -/

theorem dest_eq_some_iff {i : Instr} {d : Reg} : i.dest = some d ↔
    (∃ v p, i = .gfnew d v p) ∨ (∃ a b, i = .gfadd d a b) ∨ (∃ a b, i = .gfsub d a b) ∨ ∃ a b, i = .gfmul d a b := by
  cases i <;> simp [Instr.dest]

section
variable {W : Nat} {i : Instr} {E : Engine W} {r : Result W}

/-- A successful command with a destination responds with an element. -/
theorem ResultOf.response_of_success (h : ResultOf i E r) {d : Reg} (hd : i.dest = some d) (hst : r.2.st = .ok) :
    r.2 = .ofElement ⟨r.2.rm, r.2.rv⟩ := by
  cases h with
  | error => cases hst
  | equality _ hn | readOut _ _ hn => cases hn.symm.trans hd
  | construction | combination => rfl

/-- A command never empties a register. -/
theorem ResultOf.read_ne_none (h : ResultOf i E r) {j : Reg} (hj : E.read j ≠ none) : r.1.read j ≠ none := by
  cases h with
  | error | equality | readOut => exact hj
  | construction | combination =>
    rw [complete, Engine.read_write]
    split
    · exact Option.some_ne_none _
    · exact hj

/-- A command makes only its destination valid, and only where it succeeds. -/
theorem ResultOf.success_of_new (h : ResultOf i E r) {j : Reg} (hj : E.read j = none) (hr : r.1.read j ≠ none) :
    i.dest = some j ∧ r.2.st = .ok := by
  constructor
  · by_contra hd
    exact hr ((h.read_of_not_dest hd).trans hj)
  · by_contra hst
    exact hr (by rw [h.engine_of_error hst, hj])

/-- Where the modulus of a register comes from: a register of the engine before, or the data word of a GFNEW (R92). -/
theorem ResultOf.modulus_origin (h : ResultOf i E r) {j : Reg} {e : Element W} (he : r.1.read j = some e) :
    (∃ k x, E.read k = some x ∧ x.modulus = e.modulus) ∨ ∃ v, i = .gfnew j v e.modulus.toNat := by
  cases h with
  | error | equality | readOut => exact .inl ⟨j, e, he, rfl⟩
  | construction d v p hi =>
    rw [complete, Engine.read_write] at he
    split at he
    next hd =>
      cases he
      exact .inr ⟨v.toNat, hd ▸ hi⟩
    next => exact .inl ⟨j, e, he, rfl⟩
  | combination d a b x y f _ ha =>
    rw [complete, Engine.read_write] at he
    split at he
    next =>
      cases he
      exact .inl ⟨a, x, ha, rfl⟩
    next => exact .inl ⟨j, e, he, rfl⟩

end

/-- Settles O26: the element that the response returns stands in the destination, and GFRD responds with it. -/
theorem aResultIsReadBackByTheNextCommand : Obligations.AResultIsReadBackByTheNextCommand := by
  intro i s t d r hd hexec hr hst
  obtain ⟨hw, rfl⟩ := exec_next hexec
  cases hr
  have hresult : ResultOf i s.engine (execOn i s.engine) := execOn_result hw s.engine
  have hdest := hresult.read_dest hd hst
  have hresponse := hresult.response_of_success hd hst
  refine ⟨hdest, congrArg Response.eq hresponse, ?_⟩
  rw [exec_gfrd, State.perform_engine, gfrdOn_of_valid hdest, ← hresponse]

/-! The numbers in a destination (R42). -/

section
variable {W : Nat} {E : Engine W} {a b : Reg} {x y : Element W}

/-- A register that shows two numbers holds an element made of them. -/
theorem numbers_eq_some {r : ElementReg W} {p v : Nat} (h : r.map Element.numbers = some (p, v)) :
    ∃ e, r = some e ∧ e.modulus.toNat = p ∧ e.value.toNat = v := by
  obtain ⟨e, he, hnumbers⟩ := Option.map_eq_some_iff.1 h
  exact ⟨e, he, Prod.mk.inj hnumbers⟩

theorem numbers_dest_gfnewOn (d : Reg) (v : Word W) {p : Word W} (hp : p.toNat ≠ 0) (E : Engine W) :
    ((gfnewOn d v p E).1.read d).map Element.numbers = some (p.toNat, reduce v.toNat p.toNat) := by
  rw [gfnewOn_of_ne d v hp, complete, Engine.read_write_self, Option.map_some, Element.numbers, toNat_zext_reduce hp]

theorem read_dest_combine (f : Nat → Nat → Nat → Nat) (d : Reg) (ha : E.read a = some x) (hb : E.read b = some y)
    (hm : x.modulus = y.modulus) : (combine f d a b E).1.read d =
      some ⟨x.modulus, zext W (f x.value.toNat y.value.toNat x.modulus.toNat)⟩ := by
  rw [combine_of_compat f d ha hb hm, complete, Engine.read_write_self]

theorem numbers_dest_gfaddOn (d : Reg) (ha : E.read a = some x) (hb : E.read b = some y) (hm : x.modulus = y.modulus) :
    ((gfaddOn d a b E).1.read d).map Element.numbers =
      some (x.modulus.toNat, x.value.toNat ^^^ y.value.toNat) := by
  rw [gfaddOn, read_dest_combine _ d ha hb hm, gfadd, zext_xor, Option.map_some, Element.numbers, BitVec.toNat_xor]

theorem numbers_dest_gfmulOn (d : Reg) (hp : x.modulus.toNat ≠ 0) (ha : E.read a = some x) (hb : E.read b = some y)
    (hm : x.modulus = y.modulus) : ((gfmulOn d a b E).1.read d).map Element.numbers =
      some (x.modulus.toNat, gfmul x.value.toNat y.value.toNat x.modulus.toNat) := by
  rw [gfmulOn, read_dest_combine _ d ha hb hm, Option.map_some, Element.numbers, toNat_zext_gfmul hp]

end

/-- Settles O27: whichever register the destination is, it takes the sum or the product of the old contents. -/
theorem destinationMayBeASource : Obligations.DestinationMayBeASource := by
  intro s a b p x y hs ha hb
  have hp : p.toNat ≠ 0 := (hs a _ ha).1
  refine ⟨_, _, _, _, exec_gfadd a a a s, ?_, exec_gfmul a a a s, ?_, exec_gfmul a a b s, ?_, exec_gfmul b a b s, ?_⟩
  · rw [State.readReg_perform, numbers_dest_gfaddOn a ha ha rfl, Nat.xor_self]
  · rw [State.readReg_perform, numbers_dest_gfmulOn a hp ha ha rfl, gfmul_eq_reduce_clmul hp]
  · rw [State.readReg_perform, numbers_dest_gfmulOn a hp ha hb rfl, gfmul_eq_reduce_clmul hp]
  · rw [State.readReg_perform, numbers_dest_gfmulOn b hp ha hb rfl, gfmul_eq_reduce_clmul hp]

/-! Registers over one step (R23, R42, R92). -/

/-- What a step makes of the engine: nothing, the empty engine on a reset event, or what an issued command makes of it;
the width stays. -/
theorem step_engine {s t : State} (h : step s = .next t) :
    ∃ (E : Engine s.cfg.W) (rsp : Option (Response s.cfg.W)) (rdy : Bool) (script : List (HostEvent s.cfg.W))
      (record : List (Response s.cfg.W)), t = ⟨s.cfg, E, rsp, rdy, script, record⟩ ∧
      (E = s.engine ∨
      (E = Engine.empty s.cfg.W ∧ ∃ e rest, s.script = e :: rest ∧ e.isReset = true) ∨
      ∃ c rest, s.script = .issue c :: rest ∧ E = (engineStep s.engine c).1 ∧ rsp = some (engineStep s.engine c).2) := by
  rcases step_cases s with hn | ⟨_, _, _, hn⟩ | ⟨_, _, _, hn⟩ | ⟨e, rest, hscript, he, hn⟩ |
    ⟨c, rest, hscript, _, hn⟩
  · cases hn.symm.trans h
    exact ⟨_, _, _, _, _, rfl, .inl rfl⟩
  · cases hn.symm.trans h
    exact ⟨_, _, _, _, _, rfl, .inl rfl⟩
  · cases hn.symm.trans h
    exact ⟨_, _, _, _, _, rfl, .inl rfl⟩
  · cases hn.symm.trans h
    exact ⟨_, _, _, _, _, rfl, .inr (.inl ⟨rfl, e, rest, hscript, he⟩)⟩
  · rw [runCommand_eq] at hn
    cases hn.symm.trans h
    exact ⟨_, _, _, _, _, rfl, .inr (.inr ⟨c, rest, hscript, rfl, rfl⟩)⟩

/-- Settles O30: a reset leaves no modulus, and a command takes its modulus from a source or from GFNEW's data word. -/
theorem moduliEnterOnlyThroughGfnew : Obligations.ModuliEnterOnlyThroughGfnew := by
  intro s t j e hstep he
  obtain ⟨E, rsp, rdy, script, record, rfl, rfl | ⟨rfl, -⟩ | ⟨c, rest, hscript, rfl, -⟩⟩ := step_engine hstep
  · exact .inl ⟨j, e, he, rfl⟩
  · cases (Engine.read_empty s.cfg.W j).symm.trans he
  · obtain ⟨-, hillegal⟩ | ⟨i, hd, hresult⟩ := engineStep_cases s.engine c
    · rw [hillegal] at he
      exact .inl ⟨j, e, he, rfl⟩
    · obtain ⟨k, x, hx, hm⟩ | ⟨v, rfl⟩ := hresult.modulus_origin he
      · exact .inl ⟨k, x, hx, congrArg BitVec.toNat hm⟩
      · exact .inr ⟨c, rest, v, hscript, hd⟩

theorem HostEvent.isReset_iff {W : Nat} (e : HostEvent W) :
    e.isReset = true ↔ e = .reset ∨ ∃ c, e = .resetDuring c := by
  cases e <;> simp [HostEvent.isReset]

/-- Settles O31: only a reset empties a register, and a command makes only its destination valid, on success. -/
theorem whenRegistersBecomeEmptyOrValid : Obligations.WhenRegistersBecomeEmptyOrValid := by
  intro s t j hstep
  obtain ⟨E, rsp, rdy, script, record, rfl, rfl | ⟨rfl, e, rest, hscript, he⟩ | ⟨c, rest, hscript, rfl, rfl⟩⟩ :=
    step_engine hstep
  · exact ⟨fun hs ht => absurd ht hs, fun hs ht => absurd hs ht⟩
  · exact ⟨fun _ _ => ⟨e, rest, hscript, (HostEvent.isReset_iff e).1 he⟩,
      fun _ ht => absurd (Engine.read_empty s.cfg.W j) ht⟩
  · obtain ⟨-, hillegal⟩ | ⟨i, hd, hresult⟩ := engineStep_cases s.engine c
    · rw [hillegal]
      exact ⟨fun hs ht => absurd ht hs, fun hs ht => absurd hs ht⟩
    · refine ⟨fun hs ht => absurd ht (hresult.read_ne_none hs), fun hs ht => ?_⟩
      obtain ⟨hdest, hst⟩ := hresult.success_of_new hs ht
      exact ⟨c, rest, i, _, hscript, hd, dest_eq_some_iff.1 hdest, rfl, hst⟩

/-- Settles O32: every other command has a source, and an empty source is an error. -/
theorem theFirstSuccessIsAGfnew : Obligations.TheFirstSuccessIsAGfnew := by
  intro i s t r hempty hexec hr hst
  obtain ⟨-, rfl⟩ := exec_next hexec
  cases hr
  have hsources : ¬ ∃ a ∈ i.sources, s.engine.read a = none := fun h => by
    cases (execOn_status_of_empty h).symm.trans hst
  cases i with
  | gfnew d v p => exact ⟨d, v, p, rfl⟩
  | gfadd d a b | gfsub d a b | gfmul d a b | gfeq a b | gfrd a =>
    exact absurd ⟨a, List.mem_cons_self .., hempty a⟩ hsources

/-- Settles O42: the width stays, a register holds words of that width, and the field of the modulus holds each result
whole. -/
theorem stepKeepsWidth : Obligations.StepKeepsWidth := by
  intro s t hs hstep
  refine ⟨?_, fun j p x hj => ?_, fun c rest i hscript ready hd => ?_⟩
  · obtain ⟨E, rsp, rdy, script, record, rfl, -⟩ := step_engine hstep
    rfl
  · obtain ⟨E, rsp, rdy, script, record, rfl, -⟩ := step_engine hstep
    obtain ⟨e, -, rfl, rfl⟩ := numbers_eq_some hj
    exact ⟨e.modulus.isLt, e.value.isLt⟩
  · cases (step_issue_of_decode hscript ready hd).symm.trans hstep
    cases i with
    | gfnew d v p =>
      intro hp
      obtain ⟨hv, hm⟩ := (wellFormed_gfnew_iff s.cfg d v p).1 (wellFormed_of_decode hd)
      have hv' : (zext s.cfg.W v).toNat = v := toNat_zext ((fits_iff s.cfg v).1 hv)
      have hm' : (zext s.cfg.W p).toNat = p := toNat_zext ((fits_iff s.cfg p).1 hm)
      have hnumbers := numbers_dest_gfnewOn d (zext s.cfg.W v) (hm'.symm ▸ hp) s.engine
      rwa [hv', hm'] at hnumbers
    | gfadd d a b | gfsub d a b =>
      intro p x y ha hb
      obtain ⟨e, he, rfl, rfl⟩ := numbers_eq_some ha
      obtain ⟨e', he', hm, rfl⟩ := numbers_eq_some hb
      exact numbers_dest_gfaddOn d he he' (BitVec.eq_of_toNat_eq hm).symm
    | gfmul d a b =>
      intro p x y ha hb
      obtain ⟨e, he, rfl, rfl⟩ := numbers_eq_some ha
      obtain ⟨e', he', hm, rfl⟩ := numbers_eq_some hb
      exact numbers_dest_gfmulOn d (hs a e he).1 he he' (BitVec.eq_of_toNat_eq hm).symm
    | gfeq a b | gfrd a => trivial

/-! Reads (R48, R177). -/

/-- A command without a destination changes nothing but the response. -/
theorem exec_of_noDest {i : Instr} {s : State} (hw : i.wellFormed s.cfg = true) (hi : i.dest = none) :
    exec i s = .next { s with rsp := some (execOn i s.engine).2 } := by
  rw [exec_of_wellFormed hw, State.perform, (execOn_result hw s.engine).engine_of_noDest hi]

/-- Settles O28: neither command has a destination, and the response depends on the sources alone. -/
theorem readsHaveNoSideEffects : Obligations.ReadsHaveNoSideEffects := by
  intro i s hread
  obtain ⟨hw, hi⟩ : i.wellFormed s.cfg = true ∧ i.dest = none := by
    obtain ⟨a, rfl⟩ | ⟨a, b, rfl⟩ := hread <;> exact ⟨rfl, rfl⟩
  refine ⟨_, exec_of_noDest hw hi, fun F rsp rdy script record hF => ?_⟩
  rw [← execOn_response_congr hF]
  exact exec_of_noDest (s := ⟨s.cfg, F, rsp, rdy, script, record⟩) hw hi

/-- What GFRD responds determines the register it names. -/
theorem read_eq_of_gfrdOn_response {W : Nat} {E F : Engine W} {a : Reg} (h : (gfrdOn a E).2 = (gfrdOn a F).2) :
    E.read a = F.read a := by
  cases hE : E.read a with
  | none =>
    cases hF : F.read a with
    | none => rfl
    | some y =>
      rw [gfrdOn_of_empty hE, gfrdOn_of_valid hF] at h
      cases congrArg Response.st h
  | some x =>
    cases hF : F.read a with
    | none =>
      rw [gfrdOn_of_valid hE, gfrdOn_of_empty hF] at h
      cases congrArg Response.st h
    | some y =>
      rw [gfrdOn_of_valid hE, gfrdOn_of_valid hF] at h
      have hm : x.modulus = y.modulus := congrArg Response.rm h
      have hv : x.value = y.value := congrArg Response.rv h
      rw [show x = y from congrArg₂ Element.mk hm hv]

/-- Settles O29: the response to GFRD determines the register, for each register. -/
theorem gfrdShowsAllOfTheState : Obligations.GfrdShowsAllOfTheState := fun s F h =>
  Engine.ext_read fun a => read_eq_of_gfrdOn_response
    (h a _ _ (exec_of_noDest (i := .gfrd a) rfl rfl)
      (exec_of_noDest (i := .gfrd a) (s := { s with engine := F }) rfl rfl))

end Sys2Proof.Machine
end

section
/-! PROOFS. The machine and its host: an issued command is one application of the step function, and a sequence of them
its left fold (R50, R51); the status on the port `ST` (R160); a failed command in a run (R169); reset and the handshakes
(R33, R185 to R187, R192); and no command that the ports cannot carry (R55). -/

namespace Sys2Proof.Machine

/-! One issued command (R50). -/

/-- Settles O36: issuing a command takes it from the script and performs the engine's step function. -/
theorem aStepIsAFunctionOfRegistersAndCommand : Obligations.AStepIsAFunctionOfRegistersAndCommand :=
  fun _ _ _ => step_issue_perform

/-- Settles O5: a step with an issued command runs that command, which runs what it decodes to. -/
theorem stepRunsTheDecodedCommand : Obligations.StepRunsTheDecodedCommand := fun s _ rest _ hscript ready hd =>
  (step_issue hscript ready).trans (runCommand_of_decode (s := s.withScript rest) hd)

/-! The status of the engine (R160). -/

/-- `MalformedEncoding` is the host's: no command is answered with it (R162). -/
theorem engineStep_status_ne_malformedEncoding {W : Nat} (E : Engine W) (c : Command W) :
    (engineStep E c).2.st ≠ .err .malformedEncoding := by
  obtain ⟨-, h⟩ | ⟨i, -, hresult⟩ := engineStep_cases E c
  · rw [h]
    exact mt Status.err.inj (by decide)
  · generalize engineStep E c = r at hresult
    cases hresult with
    | error k engineKind => exact mt Status.err.inj engineKind
    | equality | readOut | construction | combination => exact Status.noConfusion

/-- A status has a code below 6, and 2 is that of `MalformedEncoding` alone. -/
theorem Status.code_of_ne_malformedEncoding {st : Status} (h : st ≠ .err .malformedEncoding) :
    st.code ≠ 2#3 ∧ st.code ≠ 6#3 ∧ st.code ≠ 7#3 := by
  obtain _ | k := st
  · decide
  · cases k with
    | malformedEncoding => exact absurd rfl h
    | invalidModulus | incompatibleField | emptyRegister | illegalCommand => decide

/-- Settles O24: the codes are those of the table, and no command is answered with the host's error. -/
theorem statusCodesOfTheEngine : Obligations.StatusCodesOfTheEngine :=
  ⟨⟨rfl, rfl, rfl, rfl, rfl, rfl⟩, fun s c _ hscript ready => ⟨_, _, step_issue_perform hscript ready, rfl,
    Status.code_of_ne_malformedEncoding (engineStep_status_ne_malformedEncoding s.engine c)⟩⟩

/-! Runs (R50, R51, R169). -/

/-- A host that holds `RSP_READY` high takes a response in the step after the one that presents it. -/
theorem core_run_respond {s t : State} {r : Response t.cfg.W} (hstep : step s = .next t) (hr : t.rsp = some r)
    (hrdy : t.rspReady = true) (n : Nat) :
    Sys2Proof.core.run (n + 2) s = Sys2Proof.core.run n { t with rsp := none, record := t.record ++ [r] } := by
  rw [← State.takeResponse_of_some hr]
  exact (core_run_succ hstep (n + 1)).trans (core_run_succ (step_take hr hrdy) n)

/-- Settles O23: the error leaves the engine as it was, so two steps later only the record differs. -/
theorem errorsAreNotSticky : Obligations.ErrorsAreNotSticky := by
  intro s t c rest r n hscript ready hrdy hstep hr hst
  have ht := anErrorHasNoOtherEffect s t c rest r hscript ready hstep hr hst
  generalize r.st = st at ht ⊢
  subst ht
  rw [ready]
  exact core_run_respond hstep rfl hrdy n

theorem engineFold_foldl {W : Nat} (cs : List (Command W)) (E : Engine W) (l : List (Response W)) :
    cs.foldl (fun acc c => ((engineStep acc.1 c).1, acc.2 ++ [(engineStep acc.1 c).2])) (E, l) =
      ((engineFold E cs).1, l ++ (engineFold E cs).2) := by
  induction cs generalizing E l with
  | nil => simp [engineFold]
  | cons c cs ih =>
    rw [engineFold, List.foldl_cons, List.foldl_cons, ih, ih]
    simp

/-- The fold of the step function over one more command, first in the sequence. -/
theorem engineFold_cons {W : Nat} (E : Engine W) (c : Command W) (cs : List (Command W)) :
    engineFold E (c :: cs) = ((engineFold (engineStep E c).1 cs).1,
      (engineStep E c).2 :: (engineFold (engineStep E c).1 cs).2) :=
  engineFold_foldl cs (engineStep E c).1 [(engineStep E c).2]

theorem length_engineFold {W : Nat} (E : Engine W) (cs : List (Command W)) :
    (engineFold E cs).2.length = cs.length := by
  induction cs generalizing E with
  | nil => rfl
  | cons c cs ih => rw [engineFold_cons, List.length_cons, List.length_cons, ih]

/-- Commands that are issued to a host that takes their responses run as the fold of the step function. -/
theorem core_run_commands {cfg : Config} (cs : List (Command cfg.W)) (E : Engine cfg.W)
    (rest : List (HostEvent cfg.W)) (record : List (Response cfg.W)) :
    Sys2Proof.core.run (2 * cs.length) ⟨cfg, E, none, true, cs.map .issue ++ rest, record⟩ =
      .next ⟨cfg, (engineFold E cs).1, none, true, rest, record ++ (engineFold E cs).2⟩ := by
  induction cs generalizing E record with
  | nil =>
    rw [engineFold, List.foldl_nil, List.append_nil]
    rfl
  | cons c cs ih =>
    have hstep : step ⟨cfg, E, none, true, .issue c :: (cs.map .issue ++ rest), record⟩ = _ :=
      step_issue_perform rfl rfl
    refine (core_run_respond hstep rfl rfl (2 * cs.length)).trans ((ih _ _).trans ?_)
    simp only [engineFold_cons, List.append_assoc, List.singleton_append]

/-- Settles O37: the number of responses and the run are both by induction on the commands. -/
theorem oneResponsePerCommandInIssueOrder : Obligations.OneResponsePerCommandInIssueOrder := by
  intro s cs rest hscript ready hrdy
  have hs : s = ⟨s.cfg, s.engine, none, true, cs.map .issue ++ rest, s.record⟩ := by rw [← hscript, ← ready, ← hrdy]
  refine ⟨length_engineFold s.engine cs, ?_⟩
  rw [ready, hrdy]
  exact (congrArg (Sys2Proof.core.run (2 * cs.length)) hs).trans (core_run_commands cs s.engine rest s.record)

/-! Reset (R33, R185, R186). -/

/-- Settles O39: after reset no register is valid. -/
theorem reducedElementsAtReset : Obligations.ReducedElementsAtReset :=
  (State.inv_iff State.reset).2 (Engine.ok_empty Config.engine.W)

/-- Settles O41: the reset state of every width has the empty register file. -/
theorem widthFitsAtReset : Obligations.WidthFitsAtReset :=
  ⟨rfl, Config.engine.one_le_W, fun cfg => ⟨rfl, (State.inv_iff _).2 (Engine.ok_empty cfg.W),
    fun i => by rw [State.readReg_resetOf, Option.map_none]⟩⟩

theorem not_rspTaken_iff (s : State) : s.rspTaken = false ↔ s.rsp = none ∨ s.rspReady = false := by
  rw [State.rspTaken, State.rspValid, Bool.and_eq_false_iff, Option.isSome_eq_false_iff, Option.isNone_iff_eq_none]

/-- Settles O34: both events empty the engine, and neither produces a response. -/
theorem resetEmptiesTheEngine : Obligations.ResetEmptiesTheEngine := by
  intro s c rest hscript htaken
  refine ⟨Engine.empty s.cfg.W, ?_, Engine.read_empty s.cfg.W, rfl, rfl⟩
  obtain h | h := hscript
  · exact step_of_reset h rfl ((not_rspTaken_iff s).1 htaken)
  · exact step_of_reset h rfl ((not_rspTaken_iff s).1 htaken)

/-! The handshakes (R51, R187, R192). -/

/-- Settles O35: an offer stays in the script while a response is presented, and is issued once it has been taken. -/
theorem offeredCommandsWaitForTheResponseToBeTaken : Obligations.OfferedCommandsWaitForTheResponseToBeTaken := by
  intro s
  refine ⟨fun hidle ready => step_of_idle hidle (.inl ready), fun c rest r hscript hr =>
    ⟨?_, step_issue_busy hscript hr, fun hrdy => ⟨?_, rfl, ?_⟩⟩⟩
  · rw [State.cmdReady, hr]
    rfl
  · rw [step_take hr hrdy, State.takeResponse_of_some hr]
  · exact step_issue (s := { s with rsp := none, record := s.record ++ [r] }) hscript rfl

/-! Operands that the ports cannot carry (R55). -/

/-- Settles O53: decoding gives well-formed instructions alone, and these are the ones that `exec` does not refuse. -/
theorem wideInstructionsNeverReachTheEngine : Obligations.WideInstructionsNeverReachTheEngine := by
  refine ⟨fun cfg c i => wellFormed_of_decode, fun s r hrefused => ?_, fun s i hwide => ?_,
    fun s i hfits => ⟨_, exec_of_wellFormed hfits⟩⟩
  · obtain ⟨t, ht⟩ := step_goes_on s
    cases ht.symm.trans hrefused
  · exact exec_of_not_wellFormed (Bool.eq_false_iff.1 hwide)

/-! Zero divisors (R123). -/

/-- Settles O19: the three products, which fit their fields, are zero. -/
theorem reducibleModuliHaveZeroDivisors : Obligations.ReducibleModuliHaveZeroDivisors := by
  intro s d a b p x y hpxy ha hb
  have hzero : gfmul x.toNat y.toNat p.toNat = 0 := by
    simp only [List.mem_cons, Prod.mk.injEq, List.not_mem_nil, or_false] at hpxy
    obtain ⟨hp, hx, hy⟩ | ⟨hp, hx, hy⟩ | ⟨hp, hx, hy⟩ := hpxy <;> (rw [hp, hx, hy]; decide)
  rw [exec_gfmul_of_valid d ha hb, hzero]
  rfl

end Sys2Proof.Machine
end

section
/-! PROOFS. Assembler text: numbers in three bases (R9), and the lines of the pseudo-commands (R71). -/

namespace Sys2Proof.Machine

/-! Numbers (R9). -/

/-- Text with no leading `0` is read in decimal. -/
theorem parseNumber_of_head?_ne {cs : List Char} (hne : cs ≠ []) (h0 : cs.head? ≠ some '0') :
    parseNumber cs = parseDigits 10 cs 0 := by
  unfold parseNumber
  split
  next => exact absurd rfl hne
  next => exact absurd rfl h0
  next => exact absurd rfl h0
  next => rfl

theorem parseNumber_numeral (v : Nat) : parseNumber (numeral 10 v) = some v := by
  by_cases hv : v = 0
  · rw [hv]
    rfl
  · rw [parseNumber_of_head?_ne (numeral_ne_nil (by decide) v) (head?_numeral (by decide) (by decide) hv),
      parseDigits_numeral (by decide) (by decide)]

theorem parseNumber_binary {ds : List Char} (hne : ds ≠ []) : parseNumber ('0' :: 'b' :: ds) = parseDigits 2 ds 0 := by
  obtain ⟨c, cs, rfl⟩ := List.exists_cons_of_ne_nil hne
  rfl

theorem parseNumber_toHex (v : Nat) : parseNumber (toHex v) = some v :=
  congrArg Except.toOption (fromHex_toHex v)

/-- Settles O50: each base has its prefix, and a decimal numeral has no leading `0` but that of zero. -/
theorem numbersAreReadInThreeBases : Obligations.NumbersAreReadInThreeBases := fun v =>
  ⟨(parseNumber_binary (numeral_ne_nil (by decide) v)).trans (parseDigits_numeral (by decide) (by decide) v),
    parseNumber_toHex v, parseNumber_numeral v⟩

/-! A line with a quoted literal (R71). -/

theorem assemble_quoted (cfg : Config) {mn a q b : List Char} (hmn : IsWord mn) (ha : IsWord a) (hq : '"' ∉ q)
    (hb : IsWord b) : assemble cfg (asmLine mn [a, '"' :: q ++ ['"'], b]) =
      parseLine cfg [.word mn, .word a, .comma, .quoted q, .comma, .word b] := by
  have htokens : tokens .plain (asmLine mn [a, '"' :: q ++ ['"'], b]) =
      some [.word mn, .word a, .comma, .quoted q, .comma, .word b] := by
    have hline : asmLine mn [a, '"' :: q ++ ['"'], b] =
        mn ++ ' ' :: (a ++ ',' :: ' ' :: '"' :: (q ++ '"' :: ',' :: ' ' :: b)) := by
      simp [asmLine, List.intercalate]
    rw [hline]
    simp [tokens_word hmn.1 hmn.2, tokens_word ha.1 ha.2, tokens_quoted hq, tokens_isWord hb]
  rw [assemble, htokens]

/-! A line with a bit sequence (R71). -/

/-- The tokens of a bit sequence, without its brackets. -/
def entryTokens (bits : List Nat) : List Token := (bits.map fun b => .word (numeral 10 b)).intersperse .comma

theorem isWord_numeral (v : Nat) : IsWord (numeral 10 v) := isWord_of_parseNumber (parseNumber_numeral v)

theorem entryTokens_singleton (b : Nat) : entryTokens [b] = [.word (numeral 10 b)] := rfl

theorem entryTokens_cons (b : Nat) {bits : List Nat} (hne : bits ≠ []) :
    entryTokens (b :: bits) = .word (numeral 10 b) :: .comma :: entryTokens bits := by
  obtain ⟨b', bits, rfl⟩ := List.exists_cons_of_ne_nil hne
  rfl

theorem tokens_entries (bits : List Nat) (rest : List Char) :
    tokens .plain (List.intercalate [',', ' '] (bits.map (numeral 10)) ++ ']' :: rest) =
      (tokens .plain rest).map (entryTokens bits ++ .closeBracket :: ·) := by
  induction bits with
  | nil => exact tokens_plain_closeBracket rest
  | cons b bits ih =>
    have hb := isWord_numeral b
    by_cases hne : bits = []
    · simp [hne, entryTokens_singleton, tokens_word hb.1 hb.2]
    · have hmap : bits.map (numeral 10) ≠ [] := mt List.map_eq_nil_iff.1 hne
      rw [List.map_cons, List.intercalate_cons_of_ne_nil hmap, entryTokens_cons b hne]
      simp [tokens_word hb.1 hb.2, ih, Function.comp_def]

/-- An empty sequence is closed where no entry has been read, and any other after its last entry. -/
theorem parseEntries_entryTokens {first : Bool} {bits : List Nat} (h : first = true ∨ bits ≠ []) (rest : List Token) :
    parseEntries first (entryTokens bits ++ .closeBracket :: rest) = some (bits, rest) := by
  induction bits generalizing first with
  | nil => simpa [entryTokens, parseEntries] using h
  | cons b bits ih =>
    by_cases hne : bits = []
    · simp [hne, entryTokens_singleton, parseEntries, parseNumber_numeral]
    · rw [entryTokens_cons b hne, List.cons_append, List.cons_append, parseEntries, parseNumber_numeral,
        ih (.inr hne)]

/-- A line of one register, a bit sequence and a modulus is read as its mnemonic and its operands. -/
theorem assemble_bits (cfg : Config) {mn a p : List Char} (hmn : IsWord mn) (ha : IsWord a) (bits : List Nat)
    (hp : IsWord p) :
    assemble cfg (asmLine mn [a, '[' :: List.intercalate [',', ' '] (bits.map (numeral 10)) ++ [']'], p]) =
      parseLine cfg (.word mn :: .word a :: .comma :: .openBracket ::
        (entryTokens bits ++ [.closeBracket, .comma, .word p])) := by
  have hline : asmLine mn [a, '[' :: List.intercalate [',', ' '] (bits.map (numeral 10)) ++ [']'], p] =
      mn ++ ' ' :: (a ++ ',' :: ' ' :: '[' ::
        (List.intercalate [',', ' '] (bits.map (numeral 10)) ++ ']' :: ',' :: ' ' :: p)) := by
    simp [asmLine, List.intercalate]
  rw [assemble, hline]
  simp [tokens_word hmn.1 hmn.2, tokens_word ha.1 ha.2, tokens_entries, tokens_isWord hp]

/-! The pseudo-commands (R71). -/

section
variable {cfg : Config} (d : Reg) {modulus : List Char} {p : Nat} (hp : parseNumber modulus = some p)
include hp

theorem assemble_gfzero : assemble cfg (asmLine "gfzero".toList [registerName d, modulus]) =
    asmResult (some (construct cfg d 0 p)) := by
  have hmn : IsWord "gfzero".toList := isWord_of_lowercase (by decide) (by simp)
  rw [assemble_two cfg hmn (isWord_registerName d) (isWord_of_parseNumber hp)]
  simp [parseTwo, hp, Pseudo.expand]

theorem assemble_gfone : assemble cfg (asmLine "gfone".toList [registerName d, modulus]) =
    asmResult (some (construct cfg d 1 p)) := by
  have hmn : IsWord "gfone".toList := isWord_of_lowercase (by decide) (by simp)
  rw [assemble_two cfg hmn (isWord_registerName d) (isWord_of_parseNumber hp)]
  simp [parseTwo, hp, Pseudo.expand]

theorem assemble_gfnewh {literal : List Char} (hq : '"' ∉ literal) :
    assemble cfg (asmLine "gfnewh".toList [registerName d, '"' :: literal ++ ['"'], modulus]) =
      asmResult (some ((Pseudo.gfnewh d literal p).expand cfg)) := by
  have hmn : IsWord "gfnewh".toList := isWord_of_lowercase (by decide) (by simp)
  rw [assemble_quoted cfg hmn (isWord_registerName d) hq (isWord_of_parseNumber hp)]
  simp [parseLine, hp]

theorem assemble_gfnewb (bits : List Nat) :
    assemble cfg (asmLine "gfnewb".toList [registerName d,
      '[' :: List.intercalate [',', ' '] (bits.map (numeral 10)) ++ [']'], modulus]) =
      asmResult (some ((Pseudo.gfnewb d bits p).expand cfg)) := by
  have hmn : IsWord "gfnewb".toList := isWord_of_lowercase (by decide) (by simp)
  have hentries := parseEntries_entryTokens (first := true) (bits := bits) (.inl rfl) [.comma, .word modulus]
  rw [assemble_bits cfg hmn (isWord_registerName d) bits (isWord_of_parseNumber hp)]
  simp [parseLine, parseBits, hentries, hp]

end

/-- The only error of `from_hex` is `MalformedEncoding` (R150). -/
theorem fromHex_error {cs : List Char} {e : HostError} (h : fromHex cs = .error e) : e = .malformedEncoding := by
  obtain ⟨haccepted, hrejected⟩ := hexLiteralsAcceptedExactlyByTheGrammar cs
  have hmalformed : fromHex cs = .error .malformedEncoding := hrejected fun ⟨x, ds, hliteral⟩ => by
    cases (haccepted x ds hliteral).symm.trans h
  exact Except.error.inj (h.symm.trans hmalformed)

/-- The only error of `from_bits` is `MalformedEncoding` (R150). -/
theorem fromBits_error {bits : List Nat} {e : HostError} (h : fromBits bits = .error e) : e = .malformedEncoding := by
  rw [fromBits] at h
  split_ifs at h
  exact (Except.error.inj h).symm

/-- What the line of a construction gives, by whether its operands fit (R55). -/
theorem asmResult_construct (cfg : Config) (d : Reg) (v p : Nat) : asmResult (some (construct cfg d v p)) =
    if cfg.Fits v ∧ cfg.Fits p then .ok (some ⟨fieldWord 1 d 0 0, zext cfg.W v, zext cfg.W p⟩)
    else .error (.host .operandTooWide) := by
  split
  next h => rw [construct_of_fits d h.1 h.2, asmResult]
  next h => rw [construct_of_wide d h, asmResult]

/-- Settles O51: each line is its pseudo-command, whose expansion is the construction of the number that it names. -/
theorem pseudoCommandsExpandToOneGfnew : Obligations.PseudoCommandsExpandToOneGfnew := by
  intro cfg d modulus p hp
  refine ⟨?_, ?_, fun literal hq => ?_, fun bits => ?_⟩
  · have h0 : cfg.Fits 0 := Nat.two_pow_pos cfg.W
    rw [assemble_gfzero d hp, asmResult_construct]
    simp only [h0, true_and]
    rfl
  · have h1 : cfg.Fits 1 := Nat.one_lt_two_pow (Nat.ne_of_gt cfg.one_le_W)
    rw [assemble_gfone d hp, asmResult_construct]
    simp only [h1, true_and]
  · rw [assemble_gfnewh d hp hq, Pseudo.expand]
    cases h : fromHex literal with
    | ok v => exact asmResult_construct cfg d v p
    | error e =>
      rw [fromHex_error h]
      rfl
  · rw [assemble_gfnewb d hp bits, Pseudo.expand]
    cases h : fromBits bits with
    | ok v => exact asmResult_construct cfg d v p
    | error e =>
      rw [fromBits_error h]
      rfl

end Sys2Proof.Machine
end
